-- ==== Sys2Proof/Word.lean ====
section
/-! DEFINITION. The word types of the hardware: the byte, the 16-bit word, the 12-bit address field, the nibble that
numbers a register (spec/00_scope.md R7 to R10, spec/10_state.md R20, spec/30_encoding.md R91, R92). All are unsigned. -/

namespace Sys2Proof

/-- One byte: a memory location, a general register, a timer, the immediate kk (R7, R92). -/
abbrev Byte := BitVec 8

/-- 16 bits: an instruction word, the pc, I, a stack slot (R7). -/
abbrev Word := BitVec 16

/-- The 12-bit immediate nnn (R92). -/
abbrev Addr12 := BitVec 12

/-- A 4-bit field of the instruction word (R91). -/
abbrev Nibble := BitVec 4

/-- A general register's index, "always taken from a 4-bit opcode field, hence inherently in range" (R20). -/
abbrev Reg := BitVec 4

/-- The index of VF, the flag register (R21). -/
abbrev vF : Reg := 0xF#4

/-- The framebuffer, "row-major (row×64+col)" (spec/10_state.md R30): 32 rows of 64 one-bit pixels, bit col of row r the pixel
FB[r*64 + col]. -/
abbrev Framebuffer := Vector (BitVec 64) 32

end Sys2Proof
end

