-- ==== Sys2Proof/Syntax.lean ====
section
/-! DEFINITION. The instructions: one constructor per row of spec/opcode_table.json (spec/30_encoding.md R96), operands in the
order the mnemonic writes them (R101), and the structured trace descriptor made of them (spec/10_state.md R34, R103). -/

namespace Sys2Proof

/-- The 35 instructions of spec/30_encoding.md R96, in the order of spec/opcode_table.json. -/
inductive Instr where
  /-- `00E0` CLS (R170). -/
  | cls
  /-- `00EE` RET (R122). -/
  | ret
  /-- `0nnn`, not 00E0 and not 00EE: SYS addr (R121). -/
  | sys (nnn : Addr12)
  /-- `1nnn` JP addr (R123). -/
  | jp (nnn : Addr12)
  /-- `2nnn` CALL addr (R124). -/
  | call (nnn : Addr12)
  /-- `3xkk` SE Vx,byte (R125). -/
  | seByte (x : Reg) (kk : Byte)
  /-- `4xkk` SNE Vx,byte (R126). -/
  | sneByte (x : Reg) (kk : Byte)
  /-- `5xy0` SE Vx,Vy (R127). -/
  | seReg (x y : Reg)
  /-- `6xkk` LD Vx,byte (R141). -/
  | ldByte (x : Reg) (kk : Byte)
  /-- `7xkk` ADD Vx,byte (R142). -/
  | addByte (x : Reg) (kk : Byte)
  /-- `8xy0` LD Vx,Vy (R143). -/
  | ldReg (x y : Reg)
  /-- `8xy1` OR Vx,Vy (R144). -/
  | orReg (x y : Reg)
  /-- `8xy2` AND Vx,Vy (R145). -/
  | andReg (x y : Reg)
  /-- `8xy3` XOR Vx,Vy (R146). -/
  | xorReg (x y : Reg)
  /-- `8xy4` ADD Vx,Vy (R147). -/
  | addReg (x y : Reg)
  /-- `8xy5` SUB Vx,Vy (R148). -/
  | subReg (x y : Reg)
  /-- `8xy6` SHR Vx (R149): the y field stands in the word and is no operand (R94). -/
  | shr (x y : Reg)
  /-- `8xy7` SUBN Vx,Vy (R150). -/
  | subnReg (x y : Reg)
  /-- `8xyE` SHL Vx (R151): the y field stands in the word and is no operand (R94). -/
  | shl (x y : Reg)
  /-- `9xy0` SNE Vx,Vy (R128). -/
  | sneReg (x y : Reg)
  /-- `Annn` LD I,addr (R160). -/
  | ldI (nnn : Addr12)
  /-- `Bnnn` JP V0,addr (R129). -/
  | jpV0 (nnn : Addr12)
  /-- `Cxkk` RND Vx,byte (R152). -/
  | rnd (x : Reg) (kk : Byte)
  /-- `Dxyn` DRW Vx,Vy,nibble (R171). -/
  | drw (x y : Reg) (n : Nibble)
  /-- `Ex9E` SKP Vx (R180). -/
  | skp (x : Reg)
  /-- `ExA1` SKNP Vx (R181). -/
  | sknp (x : Reg)
  /-- `Fx07` LD Vx,DT (R182). -/
  | ldVxDt (x : Reg)
  /-- `Fx0A` LD Vx,K (R183). -/
  | ldVxK (x : Reg)
  /-- `Fx15` LD DT,Vx (R184). -/
  | ldDtVx (x : Reg)
  /-- `Fx18` LD ST,Vx (R185). -/
  | ldStVx (x : Reg)
  /-- `Fx1E` ADD I,Vx (R161). -/
  | addI (x : Reg)
  /-- `Fx29` LD F,Vx (R162). -/
  | ldF (x : Reg)
  /-- `Fx33` LD B,Vx (R163). -/
  | ldB (x : Reg)
  /-- `Fx55` LD [I],Vx (R164). -/
  | ldMemVx (x : Reg)
  /-- `Fx65` LD Vx,[I] (R165). -/
  | ldVxMem (x : Reg)
deriving DecidableEq, Repr

/-- An operand of the trace descriptor, told apart by the spellings of spec/30_encoding.md R101. -/
inductive TraceOperand where
  | reg (x : Reg)
  | byte (kk : Byte)
  | addr (nnn : Addr12)
  | nibble (n : Nibble)
  /-- I, [I], DT, ST, K, F or B: an operand the mnemonic names and no field supplies. -/
  | named (name : String)
deriving DecidableEq, Repr

/-- "a structured descriptor (mnemonic + operand values)" (spec/10_state.md R34). -/
structure TraceDescriptor where
  mnemonic : String
  operands : List TraceOperand
deriving DecidableEq, Repr

end Sys2Proof
end

