-- ==== Sys2Proof/Decode.lean ====
section
/-! DEFINITION. Decoding and encoding (spec/30_encoding.md): the four fields of a word, the two-level dispatch on them, the
encoder written from the same formats, the opcode map of R96 as mask and match rows, and the host's decodeTableWord. The
numeric patterns are the spec's decision D6, the exact match on every fixed bit its decision D7 (log 6). -/

namespace Sys2Proof

/-- The word decomposed "into four ordered 4-bit fields" (R91). -/
structure Fields where
  op : Nibble
  x : Nibble
  y : Nibble
  n : Nibble
deriving DecidableEq, Repr

/-- The fields of a word: op = w[15:12], x = w[11:8], y = w[7:4], n = w[3:0] (R91). -/
def fieldsOf (w : Word) : Fields :=
  ⟨w.extractLsb' 12 4, w.extractLsb' 8 4, w.extractLsb' 4 4, w.extractLsb' 0 4⟩

/-- w = (op << 12) | (x << 8) | (y << 4) | n (R93). -/
def wordOf (f : Fields) : Word := f.op ++ f.x ++ f.y ++ f.n

/-- nnn, the document's address(): w[11:0] (R92). -/
def addressOf (f : Fields) : Addr12 := f.x ++ f.y ++ f.n

/-- kk, the document's immediate(): w[7:0] (R92). -/
def immediateOf (f : Fields) : Byte := f.y ++ f.n

/-- Why a word is refused: no row of the opcode map matches it (R97, R98), or the bytes end inside it. -/
inductive DecodeError where
  | noHandler (w : Word)
  | truncated
deriving DecidableEq, Repr

/-- Family 0x0, second level: only the whole words 0x00E0 and 0x00EE are CLS and RET, every other is SYS (R96, R97). -/
def decodeFamily0 (f : Fields) : Instr :=
  if addressOf f = 0x0E0#12 then .cls
  else if addressOf f = 0x0EE#12 then .ret
  else .sys (addressOf f)

/-- Family 0x8, second level: the low nibble (R96, R97). -/
def decodeFamily8 (f : Fields) : Except DecodeError Instr :=
  if f.n = 0x0#4 then .ok (.ldReg f.x f.y)
  else if f.n = 0x1#4 then .ok (.orReg f.x f.y)
  else if f.n = 0x2#4 then .ok (.andReg f.x f.y)
  else if f.n = 0x3#4 then .ok (.xorReg f.x f.y)
  else if f.n = 0x4#4 then .ok (.addReg f.x f.y)
  else if f.n = 0x5#4 then .ok (.subReg f.x f.y)
  else if f.n = 0x6#4 then .ok (.shr f.x f.y)
  else if f.n = 0x7#4 then .ok (.subnReg f.x f.y)
  else if f.n = 0xE#4 then .ok (.shl f.x f.y)
  else .error (.noHandler (wordOf f))

/-- Family 0xE, second level: the whole low byte (R96, R97). -/
def decodeFamilyE (f : Fields) : Except DecodeError Instr :=
  if immediateOf f = 0x9E#8 then .ok (.skp f.x)
  else if immediateOf f = 0xA1#8 then .ok (.sknp f.x)
  else .error (.noHandler (wordOf f))

/-- Family 0xF, second level: the whole low byte (R96, R97). -/
def decodeFamilyF (f : Fields) : Except DecodeError Instr :=
  if immediateOf f = 0x07#8 then .ok (.ldVxDt f.x)
  else if immediateOf f = 0x0A#8 then .ok (.ldVxK f.x)
  else if immediateOf f = 0x15#8 then .ok (.ldDtVx f.x)
  else if immediateOf f = 0x18#8 then .ok (.ldStVx f.x)
  else if immediateOf f = 0x1E#8 then .ok (.addI f.x)
  else if immediateOf f = 0x29#8 then .ok (.ldF f.x)
  else if immediateOf f = 0x33#8 then .ok (.ldB f.x)
  else if immediateOf f = 0x55#8 then .ok (.ldMemVx f.x)
  else if immediateOf f = 0x65#8 then .ok (.ldVxMem f.x)
  else .error (.noHandler (wordOf f))

/-- Dispatch, "a two-level switch: first on the most-significant nibble (16 families)" (R95). -/
def decodeFields (f : Fields) : Except DecodeError Instr :=
  match f.op with
  | 0x0#4 => .ok (decodeFamily0 f)
  | 0x1#4 => .ok (.jp (addressOf f))
  | 0x2#4 => .ok (.call (addressOf f))
  | 0x3#4 => .ok (.seByte f.x (immediateOf f))
  | 0x4#4 => .ok (.sneByte f.x (immediateOf f))
  | 0x5#4 => if f.n = 0x0#4 then .ok (.seReg f.x f.y) else .error (.noHandler (wordOf f))
  | 0x6#4 => .ok (.ldByte f.x (immediateOf f))
  | 0x7#4 => .ok (.addByte f.x (immediateOf f))
  | 0x8#4 => decodeFamily8 f
  | 0x9#4 => if f.n = 0x0#4 then .ok (.sneReg f.x f.y) else .error (.noHandler (wordOf f))
  | 0xA#4 => .ok (.ldI (addressOf f))
  | 0xB#4 => .ok (.jpV0 (addressOf f))
  | 0xC#4 => .ok (.rnd f.x (immediateOf f))
  | 0xD#4 => .ok (.drw f.x f.y f.n)
  | 0xE#4 => decodeFamilyE f
  | _ => decodeFamilyF f      -- 0xF, the one nibble left

/-- The instruction a word is, or the refusal of the word. -/
def decodeWord (w : Word) : Except DecodeError Instr := decodeFields (fieldsOf w)

/-- The instruction at the head of a list of bytes, high byte first (R90), with the bytes after it. -/
def decodeBytes : List Byte → Except DecodeError (Instr × List Byte)
  | hi :: lo :: rest =>
    match decodeWord (hi ++ lo) with
    | .ok i => .ok (i, rest)
    | .error e => .error e
  | _ => .error .truncated

/-- Format NNN (R94). -/
def formNNN (op : Nibble) (nnn : Addr12) : Word := op ++ nnn

/-- Format XKK, and format X with the fixed low byte in kk's place (R94). -/
def formXKK (op : Nibble) (x : Reg) (kk : Byte) : Word := op ++ x ++ kk

/-- Format XY with the fixed low nibble s, and format XYN with n in its place (R94). -/
def formXYN (op : Nibble) (x y : Reg) (n : Nibble) : Word := op ++ x ++ y ++ n

/-- The word of an instruction (R94, R96). -/
def encode : Instr → Word
  | .cls => 0x00E0#16
  | .ret => 0x00EE#16
  | .sys nnn => formNNN 0x0#4 nnn
  | .jp nnn => formNNN 0x1#4 nnn
  | .call nnn => formNNN 0x2#4 nnn
  | .seByte x kk => formXKK 0x3#4 x kk
  | .sneByte x kk => formXKK 0x4#4 x kk
  | .seReg x y => formXYN 0x5#4 x y 0x0#4
  | .ldByte x kk => formXKK 0x6#4 x kk
  | .addByte x kk => formXKK 0x7#4 x kk
  | .ldReg x y => formXYN 0x8#4 x y 0x0#4
  | .orReg x y => formXYN 0x8#4 x y 0x1#4
  | .andReg x y => formXYN 0x8#4 x y 0x2#4
  | .xorReg x y => formXYN 0x8#4 x y 0x3#4
  | .addReg x y => formXYN 0x8#4 x y 0x4#4
  | .subReg x y => formXYN 0x8#4 x y 0x5#4
  | .shr x y => formXYN 0x8#4 x y 0x6#4
  | .subnReg x y => formXYN 0x8#4 x y 0x7#4
  | .shl x y => formXYN 0x8#4 x y 0xE#4
  | .sneReg x y => formXYN 0x9#4 x y 0x0#4
  | .ldI nnn => formNNN 0xA#4 nnn
  | .jpV0 nnn => formNNN 0xB#4 nnn
  | .rnd x kk => formXKK 0xC#4 x kk
  | .drw x y n => formXYN 0xD#4 x y n
  | .skp x => formXKK 0xE#4 x 0x9E#8
  | .sknp x => formXKK 0xE#4 x 0xA1#8
  | .ldVxDt x => formXKK 0xF#4 x 0x07#8
  | .ldVxK x => formXKK 0xF#4 x 0x0A#8
  | .ldDtVx x => formXKK 0xF#4 x 0x15#8
  | .ldStVx x => formXKK 0xF#4 x 0x18#8
  | .addI x => formXKK 0xF#4 x 0x1E#8
  | .ldF x => formXKK 0xF#4 x 0x29#8
  | .ldB x => formXKK 0xF#4 x 0x33#8
  | .ldMemVx x => formXKK 0xF#4 x 0x55#8
  | .ldVxMem x => formXKK 0xF#4 x 0x65#8

/-- The two bytes of an instruction in memory order, high byte first (R69, R90). -/
def encodeBytes (i : Instr) : List Byte := [(encode i).extractLsb' 8 8, (encode i).extractLsb' 0 8]

/-- A row of the opcode map of R96: its number there, and the mask and match of "w & mask = match". -/
structure OpcodeRow where
  number : Nat
  mask : Word
  pattern : Word
deriving DecidableEq, Repr

/-- The word matches the row: "exactly when w & mask = match" (R96). -/
def OpcodeRow.matches (r : OpcodeRow) (w : Word) : Bool := w &&& r.mask == r.pattern

/-- The opcode map in first-match order, CLS and RET before SYS (R96, spec/opcode_table.json). -/
def opcodeMap : List OpcodeRow :=
  [⟨2, 0xFFFF, 0x00E0⟩, ⟨3, 0xFFFF, 0x00EE⟩, ⟨1, 0xF000, 0x0000⟩, ⟨4, 0xF000, 0x1000⟩, ⟨5, 0xF000, 0x2000⟩] ++
  [⟨6, 0xF000, 0x3000⟩, ⟨7, 0xF000, 0x4000⟩, ⟨8, 0xF00F, 0x5000⟩, ⟨9, 0xF000, 0x6000⟩, ⟨10, 0xF000, 0x7000⟩] ++
  [⟨11, 0xF00F, 0x8000⟩, ⟨12, 0xF00F, 0x8001⟩, ⟨13, 0xF00F, 0x8002⟩, ⟨14, 0xF00F, 0x8003⟩, ⟨15, 0xF00F, 0x8004⟩] ++
  [⟨16, 0xF00F, 0x8005⟩, ⟨17, 0xF00F, 0x8006⟩, ⟨18, 0xF00F, 0x8007⟩, ⟨19, 0xF00F, 0x800E⟩, ⟨20, 0xF00F, 0x9000⟩] ++
  [⟨21, 0xF000, 0xA000⟩, ⟨22, 0xF000, 0xB000⟩, ⟨23, 0xF000, 0xC000⟩, ⟨24, 0xF000, 0xD000⟩, ⟨25, 0xF0FF, 0xE09E⟩] ++
  [⟨26, 0xF0FF, 0xE0A1⟩, ⟨27, 0xF0FF, 0xF007⟩, ⟨28, 0xF0FF, 0xF00A⟩, ⟨29, 0xF0FF, 0xF015⟩, ⟨30, 0xF0FF, 0xF018⟩] ++
  [⟨31, 0xF0FF, 0xF01E⟩, ⟨32, 0xF0FF, 0xF029⟩, ⟨33, 0xF0FF, 0xF033⟩, ⟨34, 0xF0FF, 0xF055⟩, ⟨35, 0xF0FF, 0xF065⟩]

/-- The number R96 gives the instruction's row. -/
def Instr.rowNumber : Instr → Nat
  | .sys _ => 1 | .cls => 2 | .ret => 3 | .jp _ => 4 | .call _ => 5
  | .seByte _ _ => 6 | .sneByte _ _ => 7 | .seReg _ _ => 8 | .ldByte _ _ => 9 | .addByte _ _ => 10
  | .ldReg _ _ => 11 | .orReg _ _ => 12 | .andReg _ _ => 13 | .xorReg _ _ => 14 | .addReg _ _ => 15
  | .subReg _ _ => 16 | .shr _ _ => 17 | .subnReg _ _ => 18 | .shl _ _ => 19 | .sneReg _ _ => 20
  | .ldI _ => 21 | .jpV0 _ => 22 | .rnd _ _ => 23 | .drw _ _ _ => 24 | .skp _ => 25
  | .sknp _ => 26 | .ldVxDt _ => 27 | .ldVxK _ => 28 | .ldDtVx _ => 29 | .ldStVx _ => 30
  | .addI _ => 31 | .ldF _ => 32 | .ldB _ => 33 | .ldMemVx _ => 34 | .ldVxMem _ => 35

/-- The two bytes, in memory order, of an instruction whose bits are w, bit 0 the word's least significant; bits from nbits
up are 0. -/
def tableBytes (nbits w : Nat) : List Byte :=
  [BitVec.ofNat 8 (w % 2 ^ nbits / 256), BitVec.ofNat 8 (w % 2 ^ nbits)]

/-- The instruction the decoder reads from the bytes of a table word. -/
def decodeTableWord (nbits w : Nat) : Option Instr :=
  match decodeBytes (tableBytes nbits w) with
  | .ok (i, _) => some i
  | .error _ => none

end Sys2Proof
end

