-- ==== Sys2Proof/Config.lean ====
section
/-! DEFINITION. What is fixed for this hardware by the source document (spec/00_scope.md R7, rows marked doc), and the one free
value, the random byte source. The parameters the spec itself decided (PROG_BASE, PROG_END, FONT_BASE, FONT) are in
Machine/Params.lean. -/

namespace Sys2Proof.Config

/-- MEM_SIZE: addresses 0x000 to 0xFFF. -/
def memSize : Nat := 4096

/-- STACK_DEPTH. -/
def stackDepth : Nat := 16

/-- DISP_W, the columns of the display. -/
def dispW : Nat := 64

/-- DISP_H, the rows of the display. -/
def dispH : Nat := 32

/-- NKEYS. -/
def nKeys : Nat := 16

/-- GLYPH_BYTES, the bytes of one font glyph. -/
def glyphBytes : Nat := 5

/-- RAND, the random byte source: the byte it yields at each position of its stream. It has no body: the generator's algorithm,
seed and state are not in the source and "Each RandByte() is a free byte, under no law" (spec/10_state.md R32, D20, U1; log 3).
FREE VALUE: no statement rests on what it is. -/
opaque randByte : Nat → Byte

end Sys2Proof.Config
end

