-- ==== Sys2Proof/Machine/Params.lean ====
section
/-! DEFINITION. The parameters whose values are the spec's own decisions, each under its name so that a claim that depends on one
names it: PROG_BASE (D2), PROG_END (D3), FONT_BASE (D4), FONT (D5) of spec/00_scope.md R7 and spec/92_eei_decisions.md (log 5). -/

namespace Sys2Proof.Machine

/-- PROG_BASE, the first address of the program region (D2). -/
def progBase : Nat := 0x200

/-- PROG_END, one past the last address of the program region (D3). -/
def progEnd : Nat := 0x1000

/-- PROG_CAPACITY = PROG_END - PROG_BASE (spec/00_scope.md R7). -/
def progCapacity : Nat := progEnd - progBase

/-- FONT_BASE, the first address of the font region (D4). -/
def fontBase : Nat := 0x050

/-- FONT (D5): the 80 glyph bytes of spec/10_state.md R41, digits 0 to F, five rows each. -/
def font : List Byte :=
  [0xF0, 0x90, 0x90, 0x90, 0xF0, 0x20, 0x60, 0x20, 0x20, 0x70] ++
  [0xF0, 0x10, 0xF0, 0x80, 0xF0, 0xF0, 0x10, 0xF0, 0x10, 0xF0] ++
  [0x90, 0x90, 0xF0, 0x10, 0x10, 0xF0, 0x80, 0xF0, 0x10, 0xF0] ++
  [0xF0, 0x80, 0xF0, 0x90, 0xF0, 0xF0, 0x10, 0x20, 0x40, 0x40] ++
  [0xF0, 0x90, 0xF0, 0x90, 0xF0, 0xF0, 0x90, 0xF0, 0x10, 0xF0] ++
  [0xF0, 0x90, 0xF0, 0x90, 0x90, 0xE0, 0x90, 0xE0, 0x90, 0xE0] ++
  [0xF0, 0x80, 0x80, 0x80, 0xF0, 0xE0, 0x90, 0x90, 0x90, 0xE0] ++
  [0xF0, 0x80, 0xF0, 0x80, 0xF0, 0xF0, 0x80, 0xF0, 0x80, 0x80]

end Sys2Proof.Machine
end

