-- ==== Sys2Proof/Machine/State.lean ====
section
/-! DEFINITION. The machine's state, whole and as plain data (spec/10_state.md), its value after reset (R40, R240), and the
reasons a step can stop (spec/60_exceptions.md R200, spec/70_reset_and_hazards.md R244). -/

namespace Sys2Proof.Machine

/-- Mem as data: the bytes that differ from what an unlisted address reads as (`Memory.unlisted`), addresses strictly rising. -/
abbrev Memory := List Host.Cell

/-- How far the Host's boot sequence has come (spec/70_reset_and_hazards.md R242): THE MODEL'S OWN, it decides when loadProgram
and cycle are allowed (log 4). -/
inductive Phase where
  /-- After reset: no load has returned without error yet, so loadProgram is allowed and cycle is not. -/
  | fresh
  /-- After boot: a load has returned without error, so cycle is allowed and loadProgram is not. -/
  | loaded
deriving DecidableEq, Repr

/-- One atomic transaction of the Host that can change the state (spec/70_reset_and_hazards.md R244). -/
inductive HostStep where
  | reset
  | loadProgram (bytes : List Byte)
  | cycle
  | tick
  | setKey (index : Nat) (pressed : Bool)
deriving DecidableEq, Repr

/-- The state of the block: every piece of spec/10_state.md R20 to R34, and after it the model's own. -/
structure State where
  /-- V0 to VF (R20). -/
  v : Vector Byte 16
  /-- The program counter, "address of the next instruction to fetch" (R22). -/
  pc : Word
  /-- The index register I, 16 bits, never masked (R24). -/
  i : Word
  /-- The delay timer DT (R25). -/
  dt : Byte
  /-- The sound timer ST (R26). -/
  st : Byte
  /-- The depth pointer SP, 0 to 16 (R27). -/
  sp : Fin 17
  /-- Stack[0] to Stack[15]; the slots below SP are live (R27). -/
  stack : Vector Word 16
  /-- The 4096-byte memory (R29). -/
  mem : Memory
  /-- The framebuffer (R30). -/
  fb : Framebuffer
  /-- Key[0] to Key[15], true = pressed (R31). -/
  key : Vector Bool 16
  /-- The position in the random source's stream: the model's stand-in for that source's hidden state (R32, log 3). -/
  draws : Nat
  /-- The trace descriptor: the most recently executed instruction, an output no rule reads (R34, log 10). -/
  trace : Option Instr
  /-- The model's own: how far the boot sequence has come (R242, log 4). -/
  phase : Phase
  /-- The model's own: the Host's transactions still to come, oldest first (R5, R244, log 2). -/
  host : List HostStep
deriving DecidableEq, Repr

/-- The machine right after reset (R40, R240): all zero, the font in memory (an unlisted address reads as its reset contents,
so nothing is listed), pc = PROG_BASE. -/
def State.reset : State where
  v := Vector.replicate 16 0
  pc := BitVec.ofNat 16 progBase
  i := 0
  dt := 0
  st := 0
  sp := 0
  stack := Vector.replicate 16 0
  mem := []
  fb := Vector.replicate 32 0
  key := Vector.replicate 16 false
  draws := 0
  trace := none
  phase := .fresh
  host := []

/-- The five error kinds (spec/60_exceptions.md R200): "kinds names only", no code and no payload. -/
inductive ErrorKind where
  | invalidOpcode
  | stackOverflow
  | emptyStack
  | outOfBounds
  | outOfMemory
deriving DecidableEq, Repr

/-- A step that returned an error ends the run ("A model should treat an error as a fault that ends the run", R206). Each
fault carries the state the error leaves (R201 to R208), from which the Host may invoke another cycle (R210; log 1). -/
inductive Fault where
  /-- Raised by SYS and by dispatch on a word with no handler (R201). Safe: the run ends where a driver may go on. -/
  | invalidOpcode (after : State)
  /-- Raised by CALL at depth 16 (R202). Safe: the run ends where a driver may go on. -/
  | stackOverflow (after : State)
  /-- Raised by RET at depth 0 (R203). Safe: the run ends where a driver may go on. -/
  | emptyStack (after : State)
  /-- Raised by the fetch, LD B, LD [I], LD Vx,[I], DRW, SKP and SKNP (R204). Safe: the run ends where a driver may go on. -/
  | outOfBounds (after : State)
  /-- Raised by the Host's loadProgram, never by a cycle (R205). Safe: the run ends where the Host may go on. -/
  | outOfMemory (after : State)
deriving DecidableEq, Repr

/-- A step the model does not admit. -/
inductive Refusal where
  /-- Raised by exec on an instruction that has no meaning yet. Safe: nothing is provable of it. -/
  | notModelled (mnemonic : String)
  /-- Raised by the Host's setKey with an index above 15, which "has no meaning in this spec" (R187, D27). Safe. -/
  | keyIndexOutsideKeypad
  /-- Raised by the Host's loadProgram after the first cycle or a second time (R242, R244, U21). Safe. -/
  | loadOutsideBoot
  /-- Raised by the Host's cycle before boot, which is a reset and then a load that returned without error (R242, R244: "any time
  after boot", else "a model refuses it"). Safe. -/
  | cycleBeforeBoot
deriving DecidableEq, Repr

end Sys2Proof.Machine
end

