-- ==== Sys2Proof/Machine/Ops.lean ====
section
/-! DEFINITION. The named operations: sequencing, raising an error and going on after one (spec/60_exceptions.md R206 to R210),
the register file, the call stack, memory with its checked access primitives (spec/20_memory.md R63 to R66), the framebuffer,
the keypad and the random source (spec/00_scope.md R11). -/

namespace Sys2Proof.Machine

/-- What every meaning answers with. -/
abbrev Result := Host.Outcome State Fault Refusal

/-! ### Sequencing and errors -/

/-- Statements "run in the order written; a raise leaves every earlier write of the block in place and performs none of the
later ones" (R11): the second part runs on the state the first one left. -/
def andThen (r : Result) (k : State → Result) : Result :=
  match r with
  | .next s => k s
  | .fault f => .fault f
  | .refused q => .refused q

/-- raise E: "stop the instruction at once; the cycle returns error kind E" (R11, R206). The state is left as it stands;
nothing is saved, no vector is taken and no mode changes, for the architecture has no trap entry (R206). -/
def raise (e : ErrorKind) (s : State) : Result :=
  match e with
  | .invalidOpcode => .fault (.invalidOpcode s)
  | .stackOverflow => .fault (.stackOverflow s)
  | .emptyStack => .fault (.emptyStack s)
  | .outOfBounds => .fault (.outOfBounds s)
  | .outOfMemory => .fault (.outOfMemory s)

/-- The error kind a fault reports: all the Host is told (R200). -/
def Fault.kind : Fault → ErrorKind
  | .invalidOpcode _ => .invalidOpcode
  | .stackOverflow _ => .stackOverflow
  | .emptyStack _ => .emptyStack
  | .outOfBounds _ => .outOfBounds
  | .outOfMemory _ => .outOfMemory

/-- The state an error leaves behind (R201 to R208). -/
def Fault.after : Fault → State
  | .invalidOpcode s => s
  | .stackOverflow s => s
  | .emptyStack s => s
  | .outOfBounds s => s
  | .outOfMemory s => s

/-- The Host goes on after an error ("logged and skipped", R206, R207): the next cycle runs from the state the error left, "with
no memory of the error" (R210). There is no other return from an error. -/
def continueAfter (r : Result) : Result :=
  match r with
  | .next s => .next s
  | .fault f => .next f.after
  | .refused q => .refused q

/-! ### Registers -/

/-- V[x], read. -/
def State.reg (s : State) (x : Reg) : Byte := s.v[x.toNat]'x.isLt

/-- V[x] <- b. -/
def State.setReg (s : State) (x : Reg) (b : Byte) : State := { s with v := s.v.set x.toNat b x.isLt }

/-- pc <- t. -/
def State.setPc (s : State) (t : Word) : State := { s with pc := t }

/-- pc <- pc + 2, the advance of the fetch and, a second time, a skip (R23, R130 (e)). -/
def State.advancePc (s : State) : State := s.setPc (s.pc + 2)

/-- pc <- pc - 2, the rewind of the key wait (R23, R183). -/
def State.rewindPc (s : State) : State := s.setPc (s.pc - 2)

/-- The skip of SE, SNE, SKP and SKNP: "exactly pc <- pc + 2 applied after the fetch advance" when the condition holds (R130). -/
def State.skipIf (s : State) (c : Bool) : State := if c then s.advancePc else s

/-- I <- t. -/
def State.setI (s : State) (t : Word) : State := { s with i := t }

/-- DT <- b. -/
def State.setDt (s : State) (b : Byte) : State := { s with dt := b }

/-- ST <- b. -/
def State.setSt (s : State) (b : Byte) : State := { s with st := b }

/-- Mem <- m. -/
def State.setMem (s : State) (m : Memory) : State := { s with mem := m }

/-- FB <- f. -/
def State.setFb (s : State) (f : Framebuffer) : State := { s with fb := f }

/-- The whole call stack replaced. -/
def State.setStack (s : State) (sp : Fin 17) (stack : Vector Word 16) : State := { s with sp := sp, stack := stack }

/-- Key[] <- k. -/
def State.setKeys (s : State) (k : Vector Bool 16) : State := { s with key := k }

/-- The random source moved to position n of its stream. -/
def State.setDraws (s : State) (n : Nat) : State := { s with draws := n }

/-- The trace descriptor emitted by a cycle that returned Ok (R34, R120). -/
def State.setTrace (s : State) (t : Option Instr) : State := { s with trace := t }

/-- The boot sequence moved on (R242). -/
def State.setPhase (s : State) (p : Phase) : State := { s with phase := p }

/-- The Host's transactions still to come. -/
def State.setHost (s : State) (h : List HostStep) : State := { s with host := h }

/-! ### The call stack (R28) -/

/-- Push(a): "fails with StackOverflow if already at 16 entries". -/
def push (a : Word) (s : State) : Result :=
  if h : s.sp.val < 16 then
    .next (s.setStack ⟨s.sp.val + 1, by omega⟩ (s.stack.set s.sp.val a h))
  else raise .stackOverflow s

/-- pc <- Pop(): "must be surfaced as an error" on an empty stack; the slot popped keeps its value (R27, R28, D26). -/
def popToPc (s : State) : Result :=
  if h : 0 < s.sp.val then
    .next ((s.setStack ⟨s.sp.val - 1, by omega⟩ s.stack).setPc (s.stack[s.sp.val - 1]'(by omega)))
  else raise .emptyStack s

/-! ### Memory -/

/-- What an unlisted address reads as: its contents after reset, the font at FONT_BASE and 0 elsewhere (R40, R41, R61). -/
def Memory.unlisted (a : Nat) : Byte :=
  if fontBase ≤ a then font.getD (a - fontBase) 0 else 0

/-- Mem[a], unchecked. -/
def Memory.read : Memory → Nat → Byte
  | [], a => Memory.unlisted a
  | (k, b) :: m, a => if k = a then b else Memory.read m a

/-- A cell put in its place among cells of rising addresses. -/
def Memory.insert (a : Nat) (b : Byte) : Memory → Memory
  | [] => [(a, b)]
  | (k, c) :: m => if a < k then (a, b) :: (k, c) :: m else (k, c) :: Memory.insert a b m

/-- Mem[a] <- b, unchecked; the list stays canonical: an address is listed once, and not at all with its unlisted value. -/
def Memory.write (m : Memory) (a : Nat) (b : Byte) : Memory :=
  if b = Memory.unlisted a then m.filter (fun c => c.1 != a)
  else Memory.insert a b (m.filter (fun c => c.1 != a))

/-- The canonical form: addresses strictly rising, no cell equal to what its address reads as when unlisted. -/
abbrev Memory.wf (m : Memory) : Prop :=
  m.Pairwise (fun c d => c.1 < d.1) ∧ ∀ c ∈ m, c.2 ≠ Memory.unlisted c.1

/-- The bytes of a list written at ascending addresses from a, unchecked (loadProgram's loop, R67). -/
def Memory.writeBytes (m : Memory) (a : Nat) : List Byte → Memory
  | [] => m
  | b :: bs => Memory.writeBytes (Memory.write m a b) (a + 1) bs

/-- The n bytes at a, a + 1, ..., unchecked. -/
def Memory.readBytes (m : Memory) (a : Nat) : Nat → List Byte
  | 0 => []
  | n + 1 => Memory.read m a :: Memory.readBytes m (a + 1) n

/-- MemRead(a, 1), readByte: none is OutOfBounds, "outside the full 4096-byte space for reads" (R63). -/
def memRead (s : State) (a : Nat) : Option Byte :=
  if a > 0xFFF then none else some (Memory.read s.mem a)

/-- MemWrite(a, 1, v), writeByte: OutOfBounds "if addr falls outside the program region for writes" (R64). -/
def memWrite (a : Nat) (b : Byte) (s : State) : Result :=
  if a < progBase ∨ a > progEnd - 1 then raise .outOfBounds s
  else .next (s.setMem (Memory.write s.mem a b))

/-- MemRead(pc, 2), readOpcode: "reads two consecutive bytes big-endian"; none is OutOfBounds (R65, D10). An odd pc is fetched
like any other (R70, D11). -/
def fetchWord (s : State) : Option Word :=
  if s.pc.toNat < progBase ∨ s.pc.toNat > progEnd - 2 then none
  else some (Memory.read s.mem s.pc.toNat ++ Memory.read s.mem (s.pc.toNat + 1))

/-- ReadSprite(a, n): the whole slice is checked before any byte is used; none is OutOfBounds (R66, D17). -/
def readSprite (s : State) (a n : Nat) : Option (List Byte) :=
  if a + n > 0x1000 then none else some (Memory.readBytes s.mem a n)

/-! ### Display, keypad, random source -/

/-- FB[k] = 1, for k in 0 to 2047 (R30); false outside. -/
def pixel (f : Framebuffer) (k : Nat) : Bool :=
  if h : k / 64 < 32 then (f[k / 64]).getLsbD (k % 64) else false

/-- FB[k] <- FB[k] ^ 1, for k in 0 to 2047 (R171). -/
def flipPixel (f : Framebuffer) (k : Nat) : Framebuffer :=
  if h : k / 64 < 32 then f.set (k / 64) (f[k / 64] ^^^ BitVec.twoPow 64 (k % 64)) else f

/-- Key[k], none above the last key. -/
def keyState (s : State) (k : Nat) : Option Bool := s.key[k]?

/-- RandByte(): the byte at the source's position; the position then moves on ("Exactly one byte is drawn per execution", R152). -/
def randByte (s : State) : Byte := Config.randByte s.draws

end Sys2Proof.Machine
end

