-- ==== Sys2Proof/Machine/Operands.lean ====
section
/-! DEFINITION. The operand forms: zero-extended immediates (spec/30_encoding.md R92), the effective address I + k
(spec/42_index_and_memory.md R166), the glyph address, the decimal digits, the key a register names. -/

namespace Sys2Proof.Machine

/-- zext_16(nnn) (R92, R123). -/
def zextAddr (nnn : Addr12) : Word := nnn.setWidth 16

/-- zext_16 of a byte (R129, R161). -/
def zextByte (b : Byte) : Word := b.setWidth 16

/-- The effective address I + k, "formed from the full 16-bit I as an unbounded integer" (R166, D14). -/
def effAddr (s : State) (k : Nat) : Nat := s.i.toNat + k

/-- FONT_BASE + 5*V[x], the whole 8-bit value multiplied (R162, D18). -/
def glyphAddr (b : Byte) : Word := BitVec.ofNat 16 (fontBase + Config.glyphBytes * b.toNat)

/-- v div 100 (R163). -/
def hundreds (b : Byte) : Byte := BitVec.ofNat 8 (b.toNat / 100)

/-- (v div 10) mod 10 (R163). -/
def tens (b : Byte) : Byte := BitVec.ofNat 8 (b.toNat / 10 % 10)

/-- v mod 10 (R163). -/
def units (b : Byte) : Byte := BitVec.ofNat 8 (b.toNat % 10)

/-- The lowest pressed key: "scan keys 0..15 in ascending order" (R183). -/
def firstKey (s : State) : Option Nat :=
  (List.range Config.nKeys).find? (fun k => keyState s k == some true)

end Sys2Proof.Machine
end

