-- ==== Sys2Proof/Machine/Flags.lean ====
section
/-! DEFINITION. The flag computations: VF "writes the value 0 or 1, never another value" (spec/10_state.md R21), from the rules of
spec/41_register_alu.md R147 to R151 and spec/43_display.md R171. -/

namespace Sys2Proof.Machine

/-- A flag as VF holds it: 1 or 0 (R21). -/
def flagByte (c : Bool) : Byte := if c then 1 else 0

/-- ADD Vx,Vy: "1 iff the add overflowed 8 bits" (R147). -/
def carryFlag (a b : Byte) : Byte := flagByte (decide (a.toNat + b.toNat > 255))

/-- SUB and SUBN, a - b: "1 iff Vx >= Vy (no borrow)" (R148, R150). -/
def noBorrowFlag (a b : Byte) : Byte := flagByte (decide (a.toNat ≥ b.toNat))

/-- SHR: the bit shifted out, bit 0 (R149). -/
def lowBitFlag (a : Byte) : Byte := flagByte (a.getLsbD 0)

/-- SHL: the bit shifted out, bit 7 (R151). -/
def highBitFlag (a : Byte) : Byte := flagByte (a.getLsbD 7)

/-- Write order of ADD Vx,Vy: the result first, the flag second; at x = 0xF the flag is the later write (R140, R147). -/
def State.resultThenFlag (s : State) (x : Reg) (result flag : Byte) : State := (s.setReg x result).setReg vF flag

/-- Write order of SUB, SUBN, SHR, SHL: the flag first, the result second; at x = 0xF the result is the later write (R140, R148
to R151). -/
def State.flagThenResult (s : State) (x : Reg) (flag result : Byte) : State := (s.setReg vF flag).setReg x result

end Sys2Proof.Machine
end

