-- ==== Sys2Proof/Machine/ControlFlow.lean ====
section
/-! DEFINITION. Control flow (spec/40_control_flow.md). In every meaning of the machine the state's pc has already been advanced by
the cycle, so it is the address of the instruction plus 2 (R120). -/

namespace Sys2Proof.Machine

/-- SYS addr (R121, R99, D8): "raise InvalidOpcode(w)". The document gives it no handler and no semantics. -/
def execSys (_nnn : Addr12) (s : State) : Result := raise .invalidOpcode s

/-- RET (R122): pc <- Pop(). -/
def execRet (s : State) : Result := popToPc s

/-- JP addr (R123). -/
def execJp (nnn : Addr12) (s : State) : Result := .next (s.setPc (zextAddr nnn))

/-- CALL addr (R124): Push(pc), then pc <- nnn. -/
def execCall (nnn : Addr12) (s : State) : Result :=
  andThen (push s.pc s) (fun t => .next (t.setPc (zextAddr nnn)))

/-- SE Vx,byte (R125). -/
def execSeByte (x : Reg) (kk : Byte) (s : State) : Result := .next (s.skipIf (decide (s.reg x = kk)))

/-- SNE Vx,byte (R126). -/
def execSneByte (x : Reg) (kk : Byte) (s : State) : Result := .next (s.skipIf (decide (s.reg x ≠ kk)))

/-- SE Vx,Vy (R127). -/
def execSeReg (x y : Reg) (s : State) : Result := .next (s.skipIf (decide (s.reg x = s.reg y)))

/-- SNE Vx,Vy (R128). -/
def execSneReg (x y : Reg) (s : State) : Result := .next (s.skipIf (decide (s.reg x ≠ s.reg y)))

/-- JP V0,addr (R129): the sum is stored whole and not validated (D10). -/
def execJpV0 (nnn : Addr12) (s : State) : Result := .next (s.setPc (zextAddr nnn + zextByte (s.reg 0)))

end Sys2Proof.Machine
end

