-- ==== Sys2Proof/Machine/Display.lean ====
section
/-! DEFINITION. Display instructions (spec/43_display.md): CLS and the XOR blitter, as the pseudocode of R171 visits the pixels. -/

namespace Sys2Proof.Machine

/-- CLS (R170): "sets all 2048 pixels to 0". -/
def execCls (s : State) : Result := .next (s.setFb (Vector.replicate 32 0))

/-- k = py*64 + px with px = (xs + col) mod 64, py = (ys + row) mod 32 (R171). -/
def pixelIndex (xs ys : Byte) (row col : Nat) : Nat :=
  (ys.toNat + row) % Config.dispH * Config.dispW + (xs.toNat + col) % Config.dispW

/-- The framebuffer and the collision flag c while a sprite is drawn. -/
abbrev Drawing := Framebuffer × Bool

/-- One sprite bit at pixel k: a 1 bit flips the pixel and sets c if the pixel was on; a 0 bit does nothing (R171). -/
def drawBit (d : Drawing) (bit : Bool) (k : Nat) : Drawing :=
  if bit then (flipPixel d.1 k, d.2 || pixel d.1 k) else d

/-- The n columns from col of one sprite byte, "bit 7 is the leftmost column" (R171). -/
def drawCols (xs ys : Byte) (b : Byte) (row : Nat) : Nat → Nat → Drawing → Drawing
  | 0, _, d => d
  | n + 1, col, d => drawCols xs ys b row n (col + 1) (drawBit d (b.getLsbD (7 - col)) (pixelIndex xs ys row col))

/-- The sprite's bytes, one a row, from the given row on (R171). -/
def drawRows (xs ys : Byte) : List Byte → Nat → Drawing → Drawing
  | [], _, d => d
  | b :: bs, row, d => drawRows xs ys bs (row + 1) (drawCols xs ys b row 8 0 d)

/-- DRW Vx,Vy,nibble (R171): the coordinates are read before VF is written, the slice is checked whole before any pixel is
touched (D17), and VF gets the collision flag, which "starts false for the call". -/
def execDrw (x y : Reg) (n : Nibble) (s : State) : Result :=
  match readSprite s (effAddr s 0) n.toNat with
  | none => raise .outOfBounds s
  | some bytes =>
    let d := drawRows (s.reg x) (s.reg y) bytes 0 (s.fb, false)
    .next ((s.setFb d.1).setReg vF (flagByte d.2))

end Sys2Proof.Machine
end

