-- ==== Sys2Proof/Machine/IndexMemory.lean ====
section
/-! DEFINITION. Index-register and memory instructions (spec/42_index_and_memory.md). None changes I as part of an access (R166). -/

namespace Sys2Proof.Machine

/-- LD I,addr (R160). -/
def execLdI (nnn : Addr12) (s : State) : Result := .next (s.setI (zextAddr nnn))

/-- ADD I,Vx (R161, D14): modulo 2^16, no flag. -/
def execAddI (x : Reg) (s : State) : Result := .next (s.setI (s.i + zextByte (s.reg x)))

/-- LD F,Vx (R162). -/
def execLdF (x : Reg) (s : State) : Result := .next (s.setI (glyphAddr (s.reg x)))

/-- LD B,Vx (R163): three byte writes in order, each checked on its own, earlier ones staying written. -/
def execLdB (x : Reg) (s : State) : Result :=
  andThen (memWrite (effAddr s 0) (hundreds (s.reg x)) s) fun s1 =>
  andThen (memWrite (effAddr s 1) (tens (s.reg x)) s1) fun s2 =>
  memWrite (effAddr s 2) (units (s.reg x)) s2

/-- The n writes MemWrite(I + k, 1, V[k]), k ascending from the second argument: the loop of R164. -/
def storeRegs : Nat → Nat → State → Result
  | 0, _, s => .next s
  | n + 1, k, s => andThen (memWrite (effAddr s k) (s.reg (BitVec.ofNat 4 k)) s) (storeRegs n (k + 1))

/-- LD [I],Vx (R164): registers 0 to x inclusive (D15). -/
def execLdMemVx (x : Reg) (s : State) : Result := storeRegs (x.toNat + 1) 0 s

/-- The n loads V[k] <- MemRead(I + k, 1), k ascending from the second argument: the loop of R165. -/
def loadRegs : Nat → Nat → State → Result
  | 0, _, s => .next s
  | n + 1, k, s =>
    match memRead s (effAddr s k) with
    | none => raise .outOfBounds s
    | some b => loadRegs n (k + 1) (s.setReg (BitVec.ofNat 4 k) b)

/-- LD Vx,[I] (R165): registers 0 to x inclusive (D15), earlier ones staying loaded on an error (D16). -/
def execLdVxMem (x : Reg) (s : State) : Result := loadRegs (x.toNat + 1) 0 s

end Sys2Proof.Machine
end

