-- ==== Sys2Proof/Machine/KeypadTimers.lean ====
section
/-! DEFINITION. Keypad and timer instructions (spec/44_keypad_and_timers.md, section 1 and 2). -/

namespace Sys2Proof.Machine

/-- SKP Vx (R180): the key tested is the one V[x] names; a value above 15 raises OutOfBounds (D19). -/
def execSkp (x : Reg) (s : State) : Result :=
  match keyState s (s.reg x).toNat with
  | none => raise .outOfBounds s
  | some pressed => .next (s.skipIf pressed)

/-- SKNP Vx (R181). -/
def execSknp (x : Reg) (s : State) : Result :=
  match keyState s (s.reg x).toNat with
  | none => raise .outOfBounds s
  | some pressed => .next (s.skipIf (!pressed))

/-- LD Vx,DT (R182). -/
def execLdVxDt (x : Reg) (s : State) : Result := .next (s.setReg x s.dt)

/-- LD Vx,K (R183): the lowest pressed key, or pc back at this instruction, "a cooperative busy-wait". -/
def execLdVxK (x : Reg) (s : State) : Result :=
  match firstKey s with
  | some k => .next (s.setReg x (BitVec.ofNat 8 k))
  | none => .next s.rewindPc

/-- LD DT,Vx (R184). -/
def execLdDtVx (x : Reg) (s : State) : Result := .next (s.setDt (s.reg x))

/-- LD ST,Vx (R185). -/
def execLdStVx (x : Reg) (s : State) : Result := .next (s.setSt (s.reg x))

end Sys2Proof.Machine
end

