-- ==== Sys2Proof/Machine/RegisterAlu.lean ====
section
/-! DEFINITION. Register load, arithmetic, logic, shift and random instructions (spec/41_register_alu.md). The operands are read from
the state before any write (R140, D13); BitVec arithmetic wraps modulo 256 (R10, R153). -/

namespace Sys2Proof.Machine

/-- LD Vx,byte (R141). -/
def execLdByte (x : Reg) (kk : Byte) (s : State) : Result := .next (s.setReg x kk)

/-- ADD Vx,byte (R142): "wrapping add, no flag change." -/
def execAddByte (x : Reg) (kk : Byte) (s : State) : Result := .next (s.setReg x (s.reg x + kk))

/-- LD Vx,Vy (R143). -/
def execLdReg (x y : Reg) (s : State) : Result := .next (s.setReg x (s.reg y))

/-- OR Vx,Vy (R144): no flag change. -/
def execOrReg (x y : Reg) (s : State) : Result := .next (s.setReg x (s.reg x ||| s.reg y))

/-- AND Vx,Vy (R145): no flag change. -/
def execAndReg (x y : Reg) (s : State) : Result := .next (s.setReg x (s.reg x &&& s.reg y))

/-- XOR Vx,Vy (R146): no flag change. -/
def execXorReg (x y : Reg) (s : State) : Result := .next (s.setReg x (s.reg x ^^^ s.reg y))

/-- ADD Vx,Vy (R147): the sum, then VF = carry. -/
def execAddReg (x y : Reg) (s : State) : Result :=
  .next (s.resultThenFlag x (s.reg x + s.reg y) (carryFlag (s.reg x) (s.reg y)))

/-- SUB Vx,Vy (R148): VF = no borrow, then Vx - Vy. -/
def execSubReg (x y : Reg) (s : State) : Result :=
  .next (s.flagThenResult x (noBorrowFlag (s.reg x) (s.reg y)) (s.reg x - s.reg y))

/-- SHR Vx (R149): VF = bit 0, then Vx >> 1; V[y] is neither read nor written. -/
def execShr (x _y : Reg) (s : State) : Result :=
  .next (s.flagThenResult x (lowBitFlag (s.reg x)) (s.reg x >>> 1))

/-- SUBN Vx,Vy (R150): VF = no borrow, then Vy - Vx. -/
def execSubnReg (x y : Reg) (s : State) : Result :=
  .next (s.flagThenResult x (noBorrowFlag (s.reg y) (s.reg x)) (s.reg y - s.reg x))

/-- SHL Vx (R151): VF = bit 7, then Vx << 1; V[y] is neither read nor written. -/
def execShl (x _y : Reg) (s : State) : Result :=
  .next (s.flagThenResult x (highBitFlag (s.reg x)) (s.reg x <<< 1))

/-- RND Vx,byte (R152): one byte drawn, Vx := byte AND kk. The byte is a free value (log 3). -/
def execRnd (x : Reg) (kk : Byte) (s : State) : Result :=
  .next ((s.setReg x (randByte s &&& kk)).setDraws (s.draws + 1))

end Sys2Proof.Machine
end

