-- ==== Sys2Proof/Machine/Trace.lean ====
section
/-! DEFINITION. The trace descriptor of an instruction, structured: mnemonic and operand values (spec/10_state.md R34,
spec/30_encoding.md R101, R103, spec/60_exceptions.md R217). Its rendering as text is out of scope (spec/00_scope.md R4 (a)). -/

namespace Sys2Proof

/-- The trace descriptor of an instruction: its mnemonic and operands as spec/30_encoding.md R96, R101 and R103 write them,
destination first. SHR and SHL "are written with one operand" (R101). -/
def Instr.descriptor : Instr → TraceDescriptor
  | .cls => ⟨"CLS", []⟩
  | .ret => ⟨"RET", []⟩
  | .sys nnn => ⟨"SYS", [.addr nnn]⟩
  | .jp nnn => ⟨"JP", [.addr nnn]⟩
  | .call nnn => ⟨"CALL", [.addr nnn]⟩
  | .seByte x kk => ⟨"SE", [.reg x, .byte kk]⟩
  | .sneByte x kk => ⟨"SNE", [.reg x, .byte kk]⟩
  | .seReg x y => ⟨"SE", [.reg x, .reg y]⟩
  | .ldByte x kk => ⟨"LD", [.reg x, .byte kk]⟩
  | .addByte x kk => ⟨"ADD", [.reg x, .byte kk]⟩
  | .ldReg x y => ⟨"LD", [.reg x, .reg y]⟩
  | .orReg x y => ⟨"OR", [.reg x, .reg y]⟩
  | .andReg x y => ⟨"AND", [.reg x, .reg y]⟩
  | .xorReg x y => ⟨"XOR", [.reg x, .reg y]⟩
  | .addReg x y => ⟨"ADD", [.reg x, .reg y]⟩
  | .subReg x y => ⟨"SUB", [.reg x, .reg y]⟩
  | .shr x _ => ⟨"SHR", [.reg x]⟩
  | .subnReg x y => ⟨"SUBN", [.reg x, .reg y]⟩
  | .shl x _ => ⟨"SHL", [.reg x]⟩
  | .sneReg x y => ⟨"SNE", [.reg x, .reg y]⟩
  | .ldI nnn => ⟨"LD", [.named "I", .addr nnn]⟩
  | .jpV0 nnn => ⟨"JP", [.reg 0, .addr nnn]⟩
  | .rnd x kk => ⟨"RND", [.reg x, .byte kk]⟩
  | .drw x y n => ⟨"DRW", [.reg x, .reg y, .nibble n]⟩
  | .skp x => ⟨"SKP", [.reg x]⟩
  | .sknp x => ⟨"SKNP", [.reg x]⟩
  | .ldVxDt x => ⟨"LD", [.reg x, .named "DT"]⟩
  | .ldVxK x => ⟨"LD", [.reg x, .named "K"]⟩
  | .ldDtVx x => ⟨"LD", [.named "DT", .reg x]⟩
  | .ldStVx x => ⟨"LD", [.named "ST", .reg x]⟩
  | .addI x => ⟨"ADD", [.named "I", .reg x]⟩
  | .ldF x => ⟨"LD", [.named "F", .reg x]⟩
  | .ldB x => ⟨"LD", [.named "B", .reg x]⟩
  | .ldMemVx x => ⟨"LD", [.named "[I]", .reg x]⟩
  | .ldVxMem x => ⟨"LD", [.reg x, .named "[I]"]⟩

end Sys2Proof
end

