-- ==== Sys2Proof/Machine/HostOps.lean ====
section
/-! DEFINITION. The Host's side of the interface (spec/70_reset_and_hazards.md R244): its state-changing transactions other than the
cycle, each on the state with that transaction already taken off the Host's list, and its observations. -/

namespace Sys2Proof.Machine

/-- reset (R240, R241): everything as State.reset says, a loaded program included. The random source is not rewound: its state
after reset is unspecified, so nothing may be known of the bytes it yields then (R240, U31, log 3). The Host's own coming
transactions are not the block's to reset. -/
def hostReset (s : State) : Result := .next ((State.reset.setDraws s.draws).setHost s.host)

/-- loadProgram (R67, D23): OutOfMemory and nothing copied when the image exceeds the program region; the rest of the region is
not cleared. Refused outside its place in the boot sequence (R242, R244, U21). -/
def hostLoadProgram (bytes : List Byte) (s : State) : Result :=
  if s.phase = .fresh then
    if bytes.length > progCapacity then raise .outOfMemory s
    else .next ((s.setMem (Memory.writeBytes s.mem progBase bytes)).setPhase .loaded)
  else .refused .loadOutsideBoot

/-- One timer's tick: "decremented by exactly 1 per external tick while positive, floor at 0, never wrap" (R25, R186). -/
def countDown (b : Byte) : Byte := if b = 0 then 0 else b - 1

/-- tick (R186): both timers, independently; nothing else changes. -/
def hostTick (s : State) : Result := .next ((s.setDt (countDown s.dt)).setSt (countDown s.st))

/-- setKey (R187): Key[i] <- b for an index in 0 to 15; a larger index is outside the interface and refused (D27). -/
def hostSetKey (index : Nat) (pressed : Bool) (s : State) : Result :=
  if h : index < 16 then .next (s.setKeys (s.key.set index pressed h)) else .refused .keyIndexOutsideKeypad

/-- pixelAt(x, y), x the column and y the row (R172); none outside 64 by 32, where the query has no meaning (D27). -/
def pixelAt (s : State) (x y : Nat) : Option Bool :=
  if x < Config.dispW ∧ y < Config.dispH then some (pixel s.fb (y * Config.dispW + x)) else none

/-- The tone level, on "exactly while ST is not 0" (R26, R188). -/
def tone (s : State) : Bool := decide (s.st ≠ 0)

/-- The two events of the audio interface (R188). -/
inductive ToneEvent where
  /-- "sound timer became nonzero" -/
  | becameNonzero
  /-- "sound timer reached zero" -/
  | reachedZero
deriving DecidableEq, Repr

/-- The events as edges of the tone level across a step (R188, D22). -/
def toneEvent (before after : State) : Option ToneEvent :=
  match tone before, tone after with
  | false, true => some .becameNonzero
  | true, false => some .reachedZero
  | _, _ => none

/-- The trace descriptor the Host may read "after each cycle" (R34, R217). -/
def traceDescriptor (s : State) : Option TraceDescriptor := s.trace.map Instr.descriptor

end Sys2Proof.Machine
end

