-- ==== Sys2Proof/Machine/Cycle.lean ====
section
/-! DEFINITION. The instruction cycle (spec/40_control_flow.md R120), the Host's transactions gathered in one function
(spec/70_reset_and_hazards.md R244), and which of them comes next. -/

namespace Sys2Proof.Machine

/-- The state an instruction executes on: the pc advanced by 2, the "unconditional pre-increment" (R120). -/
def afterFetch (s : State) : State := s.advancePc

/-- "(optionally) emit a trace descriptor" (R120), the cycle's last act: a cycle that returns an error does not reach it. -/
def emitTrace (i : Instr) (r : Result) : Result := andThen r (fun t => .next (t.setTrace (some i)))

/-- Dispatch of a fetched word: InvalidOpcode if no row of the opcode map matches it (R120, R201). -/
def dispatchWord (w : Word) (s : State) : Result :=
  match decodeWord w with
  | .ok i => emitTrace i (exec i s)
  | .error _ => raise .invalidOpcode s

/-- One cycle (R120): fetch, which on an error leaves everything as it was; advance the pc; dispatch. -/
def cycle (s : State) : Result :=
  match fetchWord s with
  | none => raise .outOfBounds s
  | some w => dispatchWord w (afterFetch s)

/-- cycle as the Host invokes it: allowed "any time after boot", refused before (R242, R244; log 4). -/
def hostCycle (s : State) : Result := if s.phase = .fresh then .refused .cycleBeforeBoot else cycle s

/-- One transaction of the Host, which "may do" each of the rows of R244. -/
def hostTransaction (h : HostStep) (s : State) : Result :=
  match h with
  | .reset => hostReset s
  | .loadProgram bytes => hostLoadProgram bytes s
  | .cycle => hostCycle s
  | .tick => hostTick s
  | .setKey index pressed => hostSetKey index pressed s

/-- The next transaction: the oldest on the Host's list, or a cycle where the list is empty (log 2). -/
def nextTransaction (s : State) : Result :=
  match s.host with
  | [] => hostCycle s
  | h :: rest => hostTransaction h (s.setHost rest)

/-- Where an instruction is placed for the next cycle to fetch it: at the pc if a fetch there succeeds, else at PROG_BASE. -/
def placementPc (s : State) : Word :=
  if s.pc.toNat < progBase ∨ s.pc.toNat > progEnd - 2 then BitVec.ofNat 16 progBase else s.pc

/-- The state with the bytes stored where the next step, a cycle, fetches them, booted as after the load this stands for (log
11). -/
def placeForFetch (s : State) (bytes : List Byte) : State :=
  (((s.setMem (Memory.writeBytes s.mem (placementPc s).toNat bytes)).setPc (placementPc s)).setPhase .loaded).setHost []

end Sys2Proof.Machine
end

