-- ==== Sys2Proof/Machine/Step.lean ====
section
/-! DEFINITION. The machine's step, one atomic transaction of the interface (spec/70_reset_and_hazards.md R244), and the host's
placement of an instruction for the next step. -/

namespace Sys2Proof.Machine

/-- One step: the Host's next transaction, a cycle where its list is empty (R5, R120, R244; log 2). -/
def step (s : State) : Host.Outcome State Fault Refusal := nextTransaction s

/-- The state with the instruction whose bits are w stored where step fetches next. -/
def State.withFetchWord (s : State) (nbits w : Nat) : State := placeForFetch s (tableBytes nbits w)

end Sys2Proof.Machine
end

