-- ==== Sys2Proof/Safety.lean ====
section
/-! DEFINITION. What a safe run is, the invariant every step keeps, and the words frame statements are said in: which parts of the
state two states agree on. -/

namespace Sys2Proof.Machine

/-! ### The invariant -/

/-- Every listed byte lies in the program region, so the font and the rest of the reserved low region hold their reset contents
(spec/20_memory.md R62, R68). -/
abbrev Memory.inProgramRegion (m : Memory) : Prop := ∀ c ∈ m, progBase ≤ c.1 ∧ c.1 < progEnd

/-- The invariant: memory is canonical and differs from its reset contents in the program region only (R62, R68). The depth
pointer's range 0 to 16 (R28) and every width are in the types. -/
abbrev State.Inv (s : State) : Prop := Memory.wf s.mem ∧ Memory.inProgramRegion s.mem

/-! ### Runs -/

/-- k steps run from s and reach t with no error returned and nothing refused ("no error was returned", R206, R256). -/
def runsTo (k : Nat) (s t : State) : Prop := core.run k s = .next t

/-- An answer that leaves a state behind, next or fault, leaves one with P (spec/60_exceptions.md R208: the state an error leaves
is fully determined). -/
def Leaves (P : State → Prop) (r : Result) : Prop :=
  match r with
  | .next t => P t
  | .fault f => P f.after
  | .refused _ => True

/-! ### Frames -/

/-- The parts of the state an instruction can change. The rest (trace, phase, host) are the cycle's and the Host's alone. -/
inductive Part where
  | regs | pc | i | dt | st | stack | mem | fb | key | draws
deriving DecidableEq, Repr

/-- The part is the same in both states; of memory, every byte reads the same. -/
def Part.same (s t : State) : Part → Prop
  | .regs => ∀ r : Reg, t.reg r = s.reg r
  | .pc => t.pc = s.pc
  | .i => t.i = s.i
  | .dt => t.dt = s.dt
  | .st => t.st = s.st
  | .stack => t.sp = s.sp ∧ t.stack = s.stack
  | .mem => ∀ a : Nat, Memory.read t.mem a = Memory.read s.mem a
  | .fb => t.fb = s.fb
  | .key => t.key = s.key
  | .draws => t.draws = s.draws

/-- From s to t nothing changed outside the listed parts, the cycle's and the Host's parts included. -/
def OnlyChanges (parts : List Part) (s t : State) : Prop :=
  (∀ p : Part, p ∉ parts → p.same s t) ∧ t.trace = s.trace ∧ t.phase = s.phase ∧ t.host = s.host

/-- Every register outside the list is the same in both states. -/
def RegsSameBut (rs : List Reg) (s t : State) : Prop := ∀ r : Reg, r ∉ rs → t.reg r = s.reg r

/-- Every byte of memory outside the n bytes at a reads the same in both states. -/
def MemSameOutside (a n : Nat) (s t : State) : Prop :=
  ∀ b : Nat, (b < a ∨ a + n ≤ b) → Memory.read t.mem b = Memory.read s.mem b

end Sys2Proof.Machine
end

