-- ==== Sys2Proof/Certificates/Slice0/Obligations.lean ====
section
/-! DEFINITION. The statements for the provers. Each docstring names the rules of spec/ it formalises; where a statement rests on a
decision, a derivation or a general-knowledge passage that the spec marks as its own, or on a choice of the model, the docstring
says which. In every statement about exec the state's pc has already been advanced by the cycle (R120). -/

open Sys2Proof Sys2Proof.Machine

/-! ### Encoding -/

/-- 30_encoding.md R91 to R97: for every instruction, with every operand at every value its field admits, decoding its word gives
it back. The numeric patterns are the spec's decision D6, the exact match on fixed bits its decision D7. -/
def Obligations.DecodeOfEncodeIsIdentity : Prop :=
  ∀ i : Instr, i.wellFormed = true → decodeWord (encode i) = .ok i

/-- 30_encoding.md R96, R97: a word that decodes is the encoding of what it decodes to, which is well-formed: no two words are one
instruction (the ignored y of SHR and SHL is kept). Rests on D6, D7. -/
def Obligations.EncodeOfDecodeIsIdentity : Prop :=
  ∀ (w : Word) (i : Instr), decodeWord w = .ok i → encode i = w ∧ i.wellFormed = true

/-- R93, with the numeric values of R91 and R92: the fields and the derived values in numbers, and the word put together again from
its fields. -/
def Obligations.FieldsReassembleTheWord : Prop :=
  (∀ w : Word, wordOf (fieldsOf w) = w ∧ (addressOf (fieldsOf w)).toNat = w.toNat % 4096 ∧
    (immediateOf (fieldsOf w)).toNat = w.toNat % 256) ∧
  ∀ f : Fields, fieldsOf (wordOf f) = f ∧
    (wordOf f).toNat = f.op.toNat * 4096 + f.x.toNat * 256 + f.y.toNat * 16 + f.n.toNat ∧
    (addressOf f).toNat = f.x.toNat * 256 + f.y.toNat * 16 + f.n.toNat ∧
    (immediateOf f).toNat = f.y.toNat * 16 + f.n.toNat

/-- 30_encoding.md R95 to R97: the two-level dispatch answers for every word what the first matching row of the opcode map
(w & mask = match, CLS and RET before SYS) says, and refuses exactly the words no row matches. Rests on D6, D7. -/
def Obligations.DecodeFollowsTheOpcodeMap : Prop :=
  ∀ w : Word,
    match decodeWord w with
    | .ok i => (opcodeMap.find? (fun r => r.matches w)).map OpcodeRow.number = some i.rowNumber
    | .error e => opcodeMap.find? (fun r => r.matches w) = none ∧ e = .noHandler w

/-- 30_encoding.md R98, R99: the words without a handler and the words that are SYS, family by family. Rests on D6 to D8. -/
def Obligations.UndefinedWordsAreThoseListed : Prop :=
  (∀ w : Word, decodeWord w = .error (.noHandler w) ↔
    (w.toNat / 4096 = 0x5 ∧ w.toNat % 16 ≠ 0) ∨
    (w.toNat / 4096 = 0x8 ∧ w.toNat % 16 ∈ [8, 9, 0xA, 0xB, 0xC, 0xD, 0xF]) ∨
    (w.toNat / 4096 = 0x9 ∧ w.toNat % 16 ≠ 0) ∨
    (w.toNat / 4096 = 0xE ∧ w.toNat % 256 ∉ [0x9E, 0xA1]) ∨
    (w.toNat / 4096 = 0xF ∧ w.toNat % 256 ∉ [0x07, 0x0A, 0x15, 0x18, 0x1E, 0x29, 0x33, 0x55, 0x65])) ∧
  ∀ w : Word, (∃ nnn : Addr12, decodeWord w = .ok (.sys nnn)) ↔ w.toNat < 0x1000 ∧ w.toNat ≠ 0x00E0 ∧ w.toNat ≠ 0x00EE

/-- 95_test_vectors.md section 2.0 and 30_encoding.md R96: a word of each of the 16 families of R95. Rests on D6. -/
def Obligations.SampleWordsDecode : Prop :=
  decodeWord 0x00E0 = .ok .cls ∧ decodeWord 0x00EE = .ok .ret ∧ decodeWord 0x0EE0 = .ok (.sys 0xEE0) ∧
  decodeWord 0x1234 = .ok (.jp 0x234) ∧ decodeWord 0x2A1E = .ok (.call 0xA1E) ∧
  decodeWord 0x35FC = .ok (.seByte 5 0xFC) ∧ decodeWord 0x7FFF = .ok (.addByte 0xF 0xFF) ∧
  decodeWord 0x9AB0 = .ok (.sneReg 0xA 0xB) ∧ decodeWord 0xBFFF = .ok (.jpV0 0xFFF) ∧ decodeWord 0x4210 = .ok (.sneByte 2 0x10) ∧
  decodeWord 0x5AB0 = .ok (.seReg 0xA 0xB) ∧ decodeWord 0x63CF = .ok (.ldByte 3 0xCF) ∧
  decodeWord 0x8AB6 = .ok (.shr 0xA 0xB) ∧ decodeWord 0xA2F0 = .ok (.ldI 0x2F0) ∧ decodeWord 0xC30F = .ok (.rnd 3 0x0F) ∧
  decodeWord 0xDC03 = .ok (.drw 0xC 0 3) ∧ decodeWord 0xE1A1 = .ok (.sknp 1) ∧ decodeWord 0xF065 = .ok (.ldVxMem 0)

/-- 20_memory.md R69, 30_encoding.md R90: an instruction is two bytes, the high byte first; the bytes after it are left over; fewer
than two bytes are no instruction. -/
def Obligations.BytesDecodeHighByteFirst : Prop :=
  (∀ (i : Instr) (rest : List Byte), i.wellFormed = true → decodeBytes (encodeBytes i ++ rest) = .ok (i, rest)) ∧
  (∀ (hi lo : Byte) (rest : List Byte) (i : Instr), decodeBytes (hi :: lo :: rest) = .ok (i, rest) ↔
    decodeWord (BitVec.ofNat 16 (hi.toNat * 256 + lo.toNat)) = .ok i) ∧
  ∀ bs : List Byte, bs.length < 2 → decodeBytes bs = .error .truncated

/-! ### The cycle -/

/-- The Host invokes a cycle next, and rest is what it has planned after it (log 2). -/
def CycleIsInvoked (s : State) (rest : List HostStep) : Prop := (s.host = [] ∧ rest = []) ∨ s.host = .cycle :: rest

/-- The next transaction of the Host is a cycle, allowed because it comes after boot (70_reset_and_hazards.md R242, R244; log 4),
and rest is what the Host has planned after it. -/
def CycleIsNext (s : State) (rest : List HostStep) : Prop := CycleIsInvoked s rest ∧ s.phase ≠ .fresh

/-- The pc is where a fetch succeeds (20_memory.md R65). -/
def Fetchable (s : State) : Prop := progBase ≤ s.pc.toNat ∧ s.pc.toNat + 2 ≤ progEnd

/-- The next step is a cycle of the instruction i: it comes after boot, its fetch succeeds and the two bytes fetched decode to i. -/
def NextCycleRuns (s : State) (i : Instr) : Prop :=
  (∃ rest : List HostStep, CycleIsNext s rest) ∧ Fetchable s ∧ decodeBytes (Memory.readBytes s.mem s.pc.toNat 2) = .ok (i, [])

/-- 40_control_flow.md R120: a cycle runs the instruction its two bytes decode to, on the state whose pc is advanced by 2, and then
emits the trace descriptor. What is the model's own: the Host's list (log 2), the boot phase (log 4), the descriptor (log 10). -/
def Obligations.StepRunsTheDecodedInstruction : Prop :=
  ∀ (s : State) (rest : List HostStep) (i : Instr), CycleIsNext s rest → Fetchable s →
    decodeBytes (Memory.readBytes s.mem s.pc.toNat 2) = .ok (i, []) →
    step s = andThen (exec i ((s.setHost rest).setPc (s.pc + 2))) (fun t => .next (t.setTrace (some i)))

/-- 20_memory.md R65, 60_exceptions.md R204, R207 (D3, D10, D12): a fetch outside PROG_BASE to PROG_END - 2 returns OutOfBounds and
leaves everything as it was, the pc included. -/
def Obligations.FetchOutsideProgramRegionRaises : Prop :=
  ∀ (s : State) (rest : List HostStep), CycleIsNext s rest → ¬ Fetchable s →
    step s = .fault (.outOfBounds (s.setHost rest))

/-- 60_exceptions.md R201, R207 (D7, D12): a fetched word with no handler returns InvalidOpcode, with the pc advanced by 2 and every
other part of the state as it was. That the trace descriptor is as it was is the model's choice (log 10, DEDUCED, unsafe). -/
def Obligations.UndefinedWordRaisesInvalidOpcode : Prop :=
  ∀ (s : State) (rest : List HostStep) (e : DecodeError), CycleIsNext s rest → Fetchable s →
    decodeBytes (Memory.readBytes s.mem s.pc.toNat 2) = .error e →
    ∃ t : State, step s = .fault (.invalidOpcode t) ∧ t.pc.toNat = s.pc.toNat + 2 ∧ (∀ p : Part, p ≠ .pc → p.same s t) ∧
      t.trace = s.trace

/-- 60_exceptions.md R207 (D12): an error raised by an instruction of a cycle, whichever it is, leaves the pc at the instruction's
address plus 2. -/
def Obligations.ErrorLeavesPcAfterInstruction : Prop :=
  ∀ (s : State) (rest : List HostStep) (f : Fault), CycleIsNext s rest → Fetchable s → step s = .fault f →
    f.after.pc.toNat = s.pc.toNat + 2

/-- 60_exceptions.md R200, R209: no instruction is refused, and the one error kind each can return, with the condition on the state
for the stack's two; every instruction not named can raise nothing. That SYS raises InvalidOpcode is D8, the key index D19. -/
def Obligations.EachInstructionRaisesItsOneKind : Prop :=
  ∀ (i : Instr) (s : State),
    match exec i s with
    | .next _ => True
    | .refused _ => False
    | .fault f =>
      (f.kind = .invalidOpcode ∧ ∃ nnn, i = .sys nnn) ∨
      (f.kind = .stackOverflow ∧ s.sp.val = 16 ∧ ∃ nnn, i = .call nnn) ∨
      (f.kind = .emptyStack ∧ s.sp.val = 0 ∧ i = .ret) ∨
      (f.kind = .outOfBounds ∧ ((∃ x, i = .ldB x) ∨ (∃ x, i = .ldMemVx x) ∨ (∃ x, i = .ldVxMem x) ∨
        (∃ x y n, i = .drw x y n) ∨ (∃ x, i = .skp x) ∨ (∃ x, i = .sknp x)))

/-- 20_memory.md R77: the word a register dump stored at the pc is the very word the next fetch reads, with no fence between.
Derived by the spec from R65, R74, R120; the inclusive range is D15. -/
def Obligations.StoredWordIsFetchedNext : Prop :=
  ∀ (s t : State) (x : Reg), exec (.ldMemVx x) s = .next t → Fetchable s →
    s.i.toNat ≤ s.pc.toNat → s.pc.toNat + 1 ≤ s.i.toNat + x.toNat →
    fetchWord t = some (s.reg (BitVec.ofNat 4 (s.pc.toNat - s.i.toNat)) ++ s.reg (BitVec.ofNat 4 (s.pc.toNat - s.i.toNat + 1)))

/-! ### Reset and invariants -/

/-- 10_state.md R40, R41 (pc and the region and font values: D2, D4, D5, D9): what reset leaves in every piece of the block's
state. -/
def Obligations.ResetLeavesTheTabledValues : Prop :=
  (∀ r : Reg, State.reset.reg r = 0) ∧ State.reset.pc.toNat = progBase ∧ State.reset.i = 0 ∧ State.reset.dt = 0 ∧
  State.reset.st = 0 ∧ State.reset.sp.val = 0 ∧ (∀ (k : Nat) (h : k < 16), State.reset.stack[k] = 0) ∧
  (∀ a : Nat, a < 4096 → Memory.read State.reset.mem a =
    if fontBase ≤ a ∧ a < fontBase + 80 then font.getD (a - fontBase) 0 else 0) ∧ font.length = 80 ∧
  (∀ x y : Nat, x < 64 → y < 32 → pixelAt State.reset x y = some false) ∧
  (∀ k : Nat, k < 16 → keyState State.reset k = some false) ∧ State.reset.trace = none ∧ tone State.reset = false

/-- The invariant holds after reset (10_state.md R40; the canonical form is the model's own). -/
def Obligations.ResetMeetsTheInvariant : Prop := State.reset.Inv

/-- 70_reset_and_hazards.md R240, R241: the Host's reset, whatever went before, gives the reset state and loses everything,
memory included. The random source's position is kept (log 3) and the Host's list is the Host's (log 2). -/
def Obligations.HostResetForgetsEverything : Prop :=
  ∀ (s : State) (rest : List HostStep), s.host = .reset :: rest →
    ∃ t : State, step s = .next t ∧ t.v = State.reset.v ∧ t.pc = State.reset.pc ∧ t.i = State.reset.i ∧ t.dt = State.reset.dt ∧
      t.st = State.reset.st ∧ t.sp = State.reset.sp ∧ t.stack = State.reset.stack ∧ t.mem = State.reset.mem ∧
      t.fb = State.reset.fb ∧ t.key = State.reset.key ∧ t.trace = none ∧ t.phase = .fresh ∧ t.draws = s.draws ∧ t.host = rest

/-- 20_memory.md R62, R68: every step, a cycle of any instruction or a transaction of the Host, keeps memory canonical and confined
to the program region. Derived by the spec from R61, R64, R67; the canonical form is the model's own. -/
def Obligations.StepKeepsTheInvariant : Prop :=
  ∀ s t : State, s.Inv → step s = .next t → t.Inv

/-- 60_exceptions.md R204, R208: "instruction aborts without corrupting unrelated memory": the state an error leaves meets the
invariant too. -/
def Obligations.ErrorsKeepTheInvariant : Prop :=
  ∀ (s : State) (f : Fault), s.Inv → step s = .fault f → f.after.Inv

/-- 20_memory.md R68: no step changes a byte of the reserved low region, and the font reads as FONT for ever. Derived by the spec
from R61, R64, R67; the regions are D2, D4, D5. -/
def Obligations.LowMemoryNeverChanges : Prop :=
  ∀ s t : State, s.Inv → step s = .next t →
    (∀ a : Nat, a < progBase → Memory.read t.mem a = Memory.read s.mem a) ∧
    ∀ k : Nat, k < 80 → Memory.read t.mem (fontBase + k) = font.getD k 0

/-- The instruction writes VF as a flag (10_state.md R21). -/
def WritesFlag : Instr → Prop
  | .addReg _ _ | .subReg _ _ | .shr _ _ | .subnReg _ _ | .shl _ _ | .drw _ _ _ => True
  | _ => False

/-- The instruction names VF as its destination (10_state.md R21; for LD Vx,[I], R165). -/
def NamesVfAsDestination : Instr → Prop
  | .ldByte x _ | .addByte x _ | .ldReg x _ | .orReg x _ | .andReg x _ | .xorReg x _ | .rnd x _ | .ldVxDt x | .ldVxK x
  | .ldVxMem x => x = vF
  | _ => False

/-- 10_state.md R21 (D28): only the six flag-writing instructions change VF, or one that names it as the destination, whether the
instruction completes or returns an error. -/
def Obligations.OnlyFlagWritersTouchVf : Prop :=
  ∀ (i : Instr) (s : State), ¬ WritesFlag i → ¬ NamesVfAsDestination i → Leaves (fun t => t.reg vF = s.reg vF) (exec i s)

/-- 10_state.md R21: a flag "writes the value 0 or 1, never another value". With x = 0xF the later write of SUB, SHR, SUBN and SHL
is the result (D13), so those forms are left to their own statements. -/
def Obligations.FlagsAreZeroOrOne : Prop :=
  ∀ (s t : State) (x y : Reg) (n : Nibble),
    (exec (.addReg x y) s = .next t ∨ exec (.drw x y n) s = .next t ∨
      (x ≠ vF ∧ (exec (.subReg x y) s = .next t ∨ exec (.shr x y) s = .next t ∨ exec (.subnReg x y) s = .next t ∨
        exec (.shl x y) s = .next t))) →
    t.reg vF = 0 ∨ t.reg vF = 1

/-- The instruction may write register r: as its destination, as one of the registers it loads, or as the flag (10_state.md R20,
R21). -/
def MayWriteReg (r : Reg) : Instr → Prop
  | .ldByte x _ | .addByte x _ | .ldReg x _ | .orReg x _ | .andReg x _ | .xorReg x _ | .rnd x _ | .ldVxDt x | .ldVxK x => r = x
  | .addReg x _ | .subReg x _ | .shr x _ | .subnReg x _ | .shl x _ => r = x ∨ r = vF
  | .drw _ _ _ => r = vF
  | .ldVxMem x => r.toNat ≤ x.toNat
  | _ => False

/-- 10_state.md R20 to R27, R30, R31, R36: which instructions may change each part of the state, over all instructions, whether they
complete or return an error; no instruction writes a key, the trace descriptor or anything of the Host's. -/
def Obligations.EachPartHasItsWriters : Prop :=
  ∀ (i : Instr) (s : State), Leaves (fun t =>
    (∀ r : Reg, t.reg r = s.reg r ∨ MayWriteReg r i) ∧
    (t.pc = s.pc ∨ i = .ret ∨ (∃ n, i = .jp n) ∨ (∃ n, i = .call n) ∨ (∃ n, i = .jpV0 n) ∨ (∃ x k, i = .seByte x k) ∨
      (∃ x k, i = .sneByte x k) ∨ (∃ x y, i = .seReg x y) ∨ (∃ x y, i = .sneReg x y) ∨ (∃ x, i = .skp x) ∨
      (∃ x, i = .sknp x) ∨ (∃ x, i = .ldVxK x)) ∧
    (t.i = s.i ∨ (∃ n, i = .ldI n) ∨ (∃ x, i = .addI x) ∨ (∃ x, i = .ldF x)) ∧
    (t.dt = s.dt ∨ ∃ x, i = .ldDtVx x) ∧
    (t.st = s.st ∨ ∃ x, i = .ldStVx x) ∧
    ((t.sp = s.sp ∧ t.stack = s.stack) ∨ i = .ret ∨ ∃ n, i = .call n) ∧
    (t.mem = s.mem ∨ (∃ x, i = .ldB x) ∨ ∃ x, i = .ldMemVx x) ∧
    (t.fb = s.fb ∨ i = .cls ∨ ∃ x y n, i = .drw x y n) ∧
    (t.draws = s.draws ∨ ∃ x k, i = .rnd x k) ∧
    t.key = s.key ∧ t.trace = s.trace ∧ t.phase = s.phase ∧ t.host = s.host) (exec i s)

/-- The answer with f applied to the state it leaves. -/
def mapLeft (f : State → State) : Result → Result
  | .next t => .next (f t)
  | .fault (.invalidOpcode t) => .fault (.invalidOpcode (f t))
  | .fault (.stackOverflow t) => .fault (.stackOverflow (f t))
  | .fault (.emptyStack t) => .fault (.emptyStack (f t))
  | .fault (.outOfBounds t) => .fault (.outOfBounds (f t))
  | .fault (.outOfMemory t) => .fault (.outOfMemory (f t))
  | .refused q => .refused q

/-- 10_state.md R26: "No instruction reads" the sound timer: every instruction but the one that writes it does the same whatever ST
holds. -/
def Obligations.SoundTimerIsNeverRead : Prop :=
  ∀ (i : Instr) (s : State) (b : Byte), (∀ x, i ≠ .ldStVx x) → exec i (s.setSt b) = mapLeft (fun t => t.setSt b) (exec i s)

/-- 10_state.md R33, R34: no instruction reads the trace descriptor or the Host's own parts, so no memory of a past error or of what
ran before can reach a program through them. The parts phase and host are the model's own (logs 2, 4). -/
def Obligations.OutputsFeedBackIntoNothing : Prop :=
  ∀ (i : Instr) (s : State) (tr : Option Instr) (p : Phase) (h : List HostStep),
    exec i (((s.setTrace tr).setPhase p).setHost h) = mapLeft (fun t => ((t.setTrace tr).setPhase p).setHost h) (exec i s)

/-! ### Control flow -/

/-- 40_control_flow.md, JP addr (R123; that no target is checked at the jump is D10, log 7): pc := addr, nothing else. -/
def Obligations.JumpReplacesPc : Prop :=
  ∀ (nnn : Addr12) (s : State), ∃ t : State, exec (.jp nnn) s = .next t ∧ t.pc.toNat = nnn.toNat ∧ OnlyChanges [.pc] s t

/-- 40_control_flow.md, JP V0,addr (R129; not validating the sum is D10): the sum is stored whole. -/
def Obligations.JumpV0StoresTheWholeSum : Prop :=
  ∀ (nnn : Addr12) (s : State), ∃ t : State, exec (.jpV0 nnn) s = .next t ∧ t.pc.toNat = nnn.toNat + (s.reg 0).toNat ∧
    OnlyChanges [.pc] s t

/-- 40_control_flow.md, CALL addr (R28, R124; what the restored pc is, derived by the spec): CALL pushes the return address into the
slot SP names and jumps, below 16 entries; at 16 entries it returns StackOverflow with nothing pushed and no jump; and a RET right
after it restores the pc and the depth. -/
def Obligations.CallPushesAndReturnRestores : Prop :=
  ∀ (nnn : Addr12) (s : State),
    (∀ h : s.sp.val < 16, ∃ t : State, exec (.call nnn) s = .next t ∧ t.pc.toNat = nnn.toNat ∧ t.sp.val = s.sp.val + 1 ∧
      t.stack[s.sp.val] = s.pc ∧ (∀ (k : Nat) (hk : k < 16), k ≠ s.sp.val → t.stack[k] = s.stack[k]) ∧
      OnlyChanges [.pc, .stack] s t ∧
      ∃ u : State, exec .ret t = .next u ∧ u.pc = s.pc ∧ u.sp = s.sp) ∧
    (s.sp.val = 16 → exec (.call nnn) s = .fault (.stackOverflow s))

/-- 40_control_flow.md, RET (R28, R122; that the popped slot keeps its value is D26, log 14): RET takes the top of the stack as the
pc, as it is; on an empty stack it returns EmptyStack and changes nothing. -/
def Obligations.ReturnPops : Prop :=
  ∀ s : State,
    (∀ h : 0 < s.sp.val, ∃ t : State, exec .ret s = .next t ∧ t.pc = s.stack[s.sp.val - 1] ∧ t.sp.val = s.sp.val - 1 ∧
      t.stack = s.stack ∧ OnlyChanges [.pc, .stack] s t) ∧
    (s.sp.val = 0 → exec .ret s = .fault (.emptyStack s))

/-- R125, R126: SE and SNE with a byte add 2 to the pc exactly when the unsigned comparison holds, and change nothing else. -/
def Obligations.SkipsOnByte : Prop :=
  ∀ (x : Reg) (kk : Byte) (s : State),
    (∃ t : State, exec (.seByte x kk) s = .next t ∧
      t.pc = (if (s.reg x).toNat = kk.toNat then s.pc + 2 else s.pc) ∧ OnlyChanges [.pc] s t) ∧
    ∃ t : State, exec (.sneByte x kk) s = .next t ∧
      t.pc = (if (s.reg x).toNat ≠ kk.toNat then s.pc + 2 else s.pc) ∧ OnlyChanges [.pc] s t

/-- 40_control_flow.md, SE Vx,Vy and SNE Vx,Vy (R127, R128; that a non-zero low nibble is no such instruction is D7): with x = y the
first always skips and the second never. -/
def Obligations.SkipsOnRegister : Prop :=
  ∀ (x y : Reg) (s : State),
    (∃ t : State, exec (.seReg x y) s = .next t ∧
      t.pc = (if (s.reg x).toNat = (s.reg y).toNat then s.pc + 2 else s.pc) ∧ OnlyChanges [.pc] s t) ∧
    ∃ t : State, exec (.sneReg x y) s = .next t ∧
      t.pc = (if (s.reg x).toNat ≠ (s.reg y).toNat then s.pc + 2 else s.pc) ∧ OnlyChanges [.pc] s t

/-- 40_control_flow.md, SYS addr (R121, R99; D8): it always returns InvalidOpcode and changes nothing beyond the cycle's advance of
the pc. -/
def Obligations.SysAlwaysRaisesInvalidOpcode : Prop :=
  ∀ (nnn : Addr12) (s : State), exec (.sys nnn) s = .fault (.invalidOpcode s)

/-! ### Registers, arithmetic, logic -/

/-- R141, R142, R143: the load of a byte, the flagless wrapping add of a byte, the move; one register changes, VF only where it is
the destination. -/
def Obligations.RegisterMovesAndByteAdd : Prop :=
  ∀ (x y : Reg) (kk : Byte) (s : State),
    (∃ t : State, exec (.ldByte x kk) s = .next t ∧ t.reg x = kk ∧ RegsSameBut [x] s t ∧ OnlyChanges [.regs] s t) ∧
    (∃ t : State, exec (.addByte x kk) s = .next t ∧ (t.reg x).toNat = ((s.reg x).toNat + kk.toNat) % 256 ∧
      RegsSameBut [x] s t ∧ OnlyChanges [.regs] s t) ∧
    ∃ t : State, exec (.ldReg x y) s = .next t ∧ t.reg x = s.reg y ∧ RegsSameBut [x] s t ∧ OnlyChanges [.regs] s t

/-- R144, R145, R146: OR, AND and XOR bit by bit, with no flag change. -/
def Obligations.BitwiseOperations : Prop :=
  ∀ (x y : Reg) (s : State),
    (∃ t : State, exec (.orReg x y) s = .next t ∧
      (∀ k : Nat, k < 8 → (t.reg x).getLsbD k = ((s.reg x).getLsbD k || (s.reg y).getLsbD k)) ∧
      RegsSameBut [x] s t ∧ OnlyChanges [.regs] s t) ∧
    (∃ t : State, exec (.andReg x y) s = .next t ∧
      (∀ k : Nat, k < 8 → (t.reg x).getLsbD k = ((s.reg x).getLsbD k && (s.reg y).getLsbD k)) ∧
      RegsSameBut [x] s t ∧ OnlyChanges [.regs] s t) ∧
    ∃ t : State, exec (.xorReg x y) s = .next t ∧
      (∀ k : Nat, k < 8 → (t.reg x).getLsbD k = ((s.reg x).getLsbD k ^^ (s.reg y).getLsbD k)) ∧
      RegsSameBut [x] s t ∧ OnlyChanges [.regs] s t

/-- 41_register_alu.md, ADD Vx,Vy (R147): the sum modulo 256 and the carry; with x = 0xF the carry is the later write. That the
operands are latched first, which decides y = 0xF, is D13. -/
def Obligations.AddRegisters : Prop :=
  ∀ (x y : Reg) (s : State), ∃ t : State, exec (.addReg x y) s = .next t ∧
    (t.reg vF).toNat = (if (s.reg x).toNat + (s.reg y).toNat > 255 then 1 else 0) ∧
    (x ≠ vF → (t.reg x).toNat = ((s.reg x).toNat + (s.reg y).toNat) % 256) ∧
    RegsSameBut [x, vF] s t ∧ OnlyChanges [.regs] s t

/-- 41_register_alu.md, SUB Vx,Vy (R148): the difference modulo 256 and the no-borrow flag; with x = 0xF the difference is the later
write. Latching is D13. -/
def Obligations.SubtractRegisters : Prop :=
  ∀ (x y : Reg) (s : State), ∃ t : State, exec (.subReg x y) s = .next t ∧
    ((t.reg x).toNat : Int) = (((s.reg x).toNat : Int) - ((s.reg y).toNat : Int)) % 256 ∧
    (x ≠ vF → (t.reg vF).toNat = if (s.reg x).toNat ≥ (s.reg y).toNat then 1 else 0) ∧
    RegsSameBut [x, vF] s t ∧ OnlyChanges [.regs] s t

/-- 41_register_alu.md, SUBN Vx,Vy (R150): the difference the other way round; with x = 0xF it is the later write. Latching is D13. -/
def Obligations.SubtractReversed : Prop :=
  ∀ (x y : Reg) (s : State), ∃ t : State, exec (.subnReg x y) s = .next t ∧
    ((t.reg x).toNat : Int) = (((s.reg y).toNat : Int) - ((s.reg x).toNat : Int)) % 256 ∧
    (x ≠ vF → (t.reg vF).toNat = if (s.reg y).toNat ≥ (s.reg x).toNat then 1 else 0) ∧
    RegsSameBut [x, vF] s t ∧ OnlyChanges [.regs] s t

/-- 41_register_alu.md, SHR Vx and SHL Vx (R149, R151): one position, the bit shifted out into VF, V[y] neither read nor written;
with x = 0xF the result is the later write. Latching is D13. -/
def Obligations.ShiftsByOne : Prop :=
  ∀ (x y : Reg) (s : State),
    (∃ t : State, exec (.shr x y) s = .next t ∧ (t.reg x).toNat = (s.reg x).toNat / 2 ∧
      (x ≠ vF → (t.reg vF).toNat = (s.reg x).toNat % 2) ∧ RegsSameBut [x, vF] s t ∧ OnlyChanges [.regs] s t) ∧
    ∃ t : State, exec (.shl x y) s = .next t ∧ (t.reg x).toNat = (s.reg x).toNat * 2 % 256 ∧
      (x ≠ vF → (t.reg vF).toNat = (s.reg x).toNat / 128) ∧ RegsSameBut [x, vF] s t ∧ OnlyChanges [.regs] s t

/-- 41_register_alu.md, RND Vx,byte (R152; the byte is free, D20, log 3): the byte at the source's position masked with kk; one byte
is drawn. The byte is Config.randByte, which nothing in Lean can evaluate: the statement holds for every value of it. -/
def Obligations.RandomByteIsMasked : Prop :=
  ∀ (x : Reg) (kk : Byte) (s : State), ∃ t : State, exec (.rnd x kk) s = .next t ∧
    t.reg x = Config.randByte s.draws &&& kk ∧
    (∀ k : Nat, kk.getLsbD k = false → (t.reg x).getLsbD k = false) ∧ t.draws = s.draws + 1 ∧
    RegsSameBut [x] s t ∧ OnlyChanges [.regs, .draws] s t

/-- 41_register_alu.md R153 (derived by the spec from R147, R148, R150): ADD then SUB of the same register restores it, and
SUB Vx,Vy and SUBN Vy,Vx compute the same difference into different registers. The registers are distinct from one another and
from VF; the other forms are in the statements of each instruction. -/
def Obligations.AddThenSubtractRestores : Prop :=
  ∀ (x y : Reg) (s : State), x ≠ vF → y ≠ vF → x ≠ y →
    (∃ t u : State, exec (.addReg x y) s = .next t ∧ exec (.subReg x y) t = .next u ∧ u.reg x = s.reg x ∧ u.reg y = s.reg y) ∧
    ∃ t u : State, exec (.subReg x y) s = .next t ∧ exec (.subnReg y x) s = .next u ∧ t.reg x = u.reg y ∧ t.reg vF = u.reg vF

/-! ### Index register and memory -/

/-- 42_index_and_memory.md, LD I,addr, ADD I,Vx and LD F,Vx (R160 to R162; D4, D14, D18, G6): what each leaves in I; no register,
VF included, and no byte of memory changes. -/
def Obligations.IndexRegisterWrites : Prop :=
  ∀ (nnn : Addr12) (x : Reg) (s : State),
    (∃ t : State, exec (.ldI nnn) s = .next t ∧ t.i.toNat = nnn.toNat ∧ OnlyChanges [.i] s t) ∧
    (∃ t : State, exec (.addI x) s = .next t ∧ t.i.toNat = (s.i.toNat + (s.reg x).toNat) % 65536 ∧ OnlyChanges [.i] s t) ∧
    ∃ t : State, exec (.ldF x) s = .next t ∧ t.i.toNat = fontBase + 5 * (s.reg x).toNat ∧ OnlyChanges [.i] s t

/-- 42_index_and_memory.md R162 with 10_state.md R41 (D4, D5) and 20_memory.md R68: after LD F,Vx with a digit in Vx the five bytes
at I are that digit's glyph. -/
def Obligations.FontAddressFindsTheGlyph : Prop :=
  ∀ (x : Reg) (s : State), s.Inv → (s.reg x).toNat < 16 →
    ∃ t : State, exec (.ldF x) s = .next t ∧ ∀ r : Nat, r < 5 →
      memRead t (t.i.toNat + r) = some (font.getD (5 * (s.reg x).toNat + r) 0)

/-- The n addresses from a lie in the program region (20_memory.md R64). -/
def Writable (a n : Nat) : Prop := ∀ k : Nat, k < n → progBase ≤ a + k ∧ a + k < progEnd

/-- 42_index_and_memory.md, LD B,Vx (R163; region values D2, D3): with the three bytes at I in the program region, hundreds, tens
and units are stored at I, I + 1, I + 2 and nothing else changes. -/
def Obligations.BcdStoresThreeDigits : Prop :=
  ∀ (x : Reg) (s : State), Writable s.i.toNat 3 → ∃ t : State, exec (.ldB x) s = .next t ∧
    (Memory.read t.mem s.i.toNat).toNat = (s.reg x).toNat / 100 ∧
    (Memory.read t.mem (s.i.toNat + 1)).toNat = (s.reg x).toNat / 10 % 10 ∧
    (Memory.read t.mem (s.i.toNat + 2)).toNat = (s.reg x).toNat % 10 ∧
    MemSameOutside s.i.toNat 3 s t ∧ OnlyChanges [.mem] s t

/-- 42_index_and_memory.md, LD B,Vx (R163, 60_exceptions.md R208; region values D2, D3): where the first m digits fit and the next
does not, OutOfBounds is returned with exactly those m digits written. -/
def Obligations.BcdStopsAtFirstBadByte : Prop :=
  ∀ (x : Reg) (s : State) (m : Nat), m < 3 → Writable s.i.toNat m → ¬ Writable (s.i.toNat + m) 1 →
    ∃ t : State, exec (.ldB x) s = .fault (.outOfBounds t) ∧
      (0 < m → (Memory.read t.mem s.i.toNat).toNat = (s.reg x).toNat / 100) ∧
      (1 < m → (Memory.read t.mem (s.i.toNat + 1)).toNat = (s.reg x).toNat / 10 % 10) ∧
      MemSameOutside s.i.toNat m s t ∧ OnlyChanges [.mem] s t

/-- 42_index_and_memory.md, LD [I],Vx (R164; the inclusive range is D15): registers 0 to x, x included, stored at I to I + x;
I and every other byte unchanged. -/
def Obligations.DumpStoresRegistersInclusive : Prop :=
  ∀ (x : Reg) (s : State), Writable s.i.toNat (x.toNat + 1) → ∃ t : State, exec (.ldMemVx x) s = .next t ∧
    (∀ r : Reg, r.toNat ≤ x.toNat → Memory.read t.mem (s.i.toNat + r.toNat) = s.reg r) ∧
    MemSameOutside s.i.toNat (x.toNat + 1) s t ∧ OnlyChanges [.mem] s t

/-- 42_index_and_memory.md, LD [I],Vx, 60_exceptions.md R208 (D15, D16): where the first m registers fit and the next does not,
OutOfBounds is returned with exactly those m stored. -/
def Obligations.DumpStopsAtFirstBadByte : Prop :=
  ∀ (x : Reg) (s : State) (m : Nat), m ≤ x.toNat → Writable s.i.toNat m → ¬ Writable (s.i.toNat + m) 1 →
    ∃ t : State, exec (.ldMemVx x) s = .fault (.outOfBounds t) ∧
      (∀ r : Reg, r.toNat < m → Memory.read t.mem (s.i.toNat + r.toNat) = s.reg r) ∧
      MemSameOutside s.i.toNat m s t ∧ OnlyChanges [.mem] s t

/-- 42_index_and_memory.md, LD Vx,[I] (R165; the inclusive range is D15): registers 0 to x, x included, loaded from I to I + x, from
any region; nothing else changes. -/
def Obligations.LoadFillsRegistersInclusive : Prop :=
  ∀ (x : Reg) (s : State), s.i.toNat + x.toNat < 4096 → ∃ t : State, exec (.ldVxMem x) s = .next t ∧
    (∀ r : Reg, t.reg r = if r.toNat ≤ x.toNat then Memory.read s.mem (s.i.toNat + r.toNat) else s.reg r) ∧
    OnlyChanges [.regs] s t

/-- 42_index_and_memory.md, LD Vx,[I], 60_exceptions.md R208 (D14 to D16): where the last byte is beyond memory, OutOfBounds is
returned with exactly the registers below it loaded. -/
def Obligations.LoadStopsAtFirstBadByte : Prop :=
  ∀ (x : Reg) (s : State), 4096 ≤ s.i.toNat + x.toNat → ∃ t : State, exec (.ldVxMem x) s = .fault (.outOfBounds t) ∧
    (∀ r : Reg, t.reg r = if s.i.toNat + r.toNat < 4096 then Memory.read s.mem (s.i.toNat + r.toNat) else s.reg r) ∧
    OnlyChanges [.regs] s t

/-! ### Display -/

/-- R170: every pixel off, VF and everything else unchanged. -/
def Obligations.ClearScreenTurnsEveryPixelOff : Prop :=
  ∀ s : State, ∃ t : State, exec .cls s = .next t ∧
    (∀ x y : Nat, x < 64 → y < 32 → pixelAt t x y = some false) ∧ OnlyChanges [.fb] s t

/-- The pixel in column px and row py is hit by a 1 bit of the sprite of n bytes at I, drawn at (xs, ys): M of
43_display.md R173 (b), "bit 7 is the leftmost column", wrapping at 64 and 32 (R171). -/
def SpriteHits (s : State) (xs ys n px py : Nat) : Prop :=
  ∃ row col : Nat, row < n ∧ col < 8 ∧ px = (xs + col) % 64 ∧ py = (ys + row) % 32 ∧
    (Memory.read s.mem (s.i.toNat + row)).getLsbD (7 - col) = true

/-- 43_display.md R171 and R173 (a), (b) (the latter derived by the spec): the final framebuffer is the old one exclusive-or the
pixels hit, and VF is 1 exactly when a hit pixel was on; registers other than VF, I and memory are unchanged. n = 0 draws
nothing. -/
def Obligations.DrawXorsTheSpriteAndReportsCollision : Prop :=
  ∀ (x y : Reg) (n : Nibble) (s : State), s.i.toNat + n.toNat ≤ 4096 → ∃ t : State, exec (.drw x y n) s = .next t ∧
    (∀ px py : Nat, px < 64 → py < 32 →
      (pixelAt t px py = pixelAt s px py ↔ ¬ SpriteHits s (s.reg x).toNat (s.reg y).toNat n.toNat px py)) ∧
    (t.reg vF).toNat ≤ 1 ∧
    ((t.reg vF).toNat = 1 ↔ ∃ px py : Nat, px < 64 ∧ py < 32 ∧ pixelAt s px py = some true ∧
      SpriteHits s (s.reg x).toNat (s.reg y).toNat n.toNat px py) ∧
    RegsSameBut [vF] s t ∧ OnlyChanges [.regs, .fb] s t

/-- 20_memory.md R66, 43_display.md R171 (D14, D17): a slice that runs past the end of memory returns OutOfBounds before any pixel is
touched: nothing changes, VF included; n = 0 does so exactly above 0x1000. -/
def Obligations.DrawPastMemoryRaises : Prop :=
  ∀ (x y : Reg) (n : Nibble) (s : State), 4096 < s.i.toNat + n.toNat → exec (.drw x y n) s = .fault (.outOfBounds s)

/-- 43_display.md R173 (c) (derived by the spec from R171): two successive DRW of the same bytes at the same coordinates restore the
framebuffer. The coordinate registers are not VF, which the first DRW overwrites. -/
def Obligations.DrawTwiceRestoresTheDisplay : Prop :=
  ∀ (x y : Reg) (n : Nibble) (s : State), x ≠ vF → y ≠ vF → s.i.toNat + n.toNat ≤ 4096 →
    ∃ t u : State, exec (.drw x y n) s = .next t ∧ exec (.drw x y n) t = .next u ∧ u.fb = s.fb ∧
      ((∃ row col : Nat, row < n.toNat ∧ col < 8 ∧ (Memory.read s.mem (s.i.toNat + row)).getLsbD (7 - col) = true) →
        s.fb = State.reset.fb → t.reg vF = 0 ∧ u.reg vF = 1)

/-! ### Keypad, timers and the Host -/

/-- 44_keypad_and_timers.md, SKP Vx and SKNP Vx (R180, R181; above 15, D19): the key V[x] names decides the skip; a value above 15
returns OutOfBounds and changes nothing. -/
def Obligations.SkipsOnKey : Prop :=
  ∀ (x : Reg) (s : State),
    (∀ h : (s.reg x).toNat < 16,
      (∃ t : State, exec (.skp x) s = .next t ∧ t.pc = (if s.key[(s.reg x).toNat] = true then s.pc + 2 else s.pc) ∧
        OnlyChanges [.pc] s t) ∧
      ∃ t : State, exec (.sknp x) s = .next t ∧ t.pc = (if s.key[(s.reg x).toNat] = false then s.pc + 2 else s.pc) ∧
        OnlyChanges [.pc] s t) ∧
    (15 < (s.reg x).toNat → exec (.skp x) s = .fault (.outOfBounds s) ∧ exec (.sknp x) s = .fault (.outOfBounds s))

/-- 44_keypad_and_timers.md, LD Vx,DT (R182), LD DT,Vx (R184) and LD ST,Vx (R185): the three transfers between a register and a
timer; the tone, one level (R188, D22), follows ST. -/
def Obligations.TimerTransfers : Prop :=
  ∀ (x : Reg) (s : State),
    (∃ t : State, exec (.ldVxDt x) s = .next t ∧ t.reg x = s.dt ∧ RegsSameBut [x] s t ∧ OnlyChanges [.regs] s t) ∧
    (∃ t : State, exec (.ldDtVx x) s = .next t ∧ t.dt = s.reg x ∧ OnlyChanges [.dt] s t) ∧
    ∃ t : State, exec (.ldStVx x) s = .next t ∧ t.st = s.reg x ∧ (tone t = true ↔ (s.reg x).toNat ≠ 0) ∧ OnlyChanges [.st] s t

/-- 44_keypad_and_timers.md, LD Vx,K (R183): with a key down, Vx gets the lowest one's index and the pc stays advanced; with none,
the pc goes back by 2 and nothing else changes. -/
def Obligations.KeyWaitTakesTheLowestKey : Prop :=
  ∀ (x : Reg) (s : State),
    (∀ k : Nat, k < 16 → keyState s k = some true → (∀ j : Nat, j < k → keyState s j = some false) →
      ∃ t : State, exec (.ldVxK x) s = .next t ∧ (t.reg x).toNat = k ∧ RegsSameBut [x] s t ∧ OnlyChanges [.regs] s t) ∧
    ((∀ k : Nat, k < 16 → keyState s k = some false) →
      ∃ t : State, exec (.ldVxK x) s = .next t ∧ t.pc = s.pc - 2 ∧ OnlyChanges [.pc] s t)

/-- 44_keypad_and_timers.md R183: a cycle of LD Vx,K with no key down completes and its net effect on the block's state is nothing at
all: every part is as before, the pc included. The trace descriptor it emits is an output (log 10). -/
def Obligations.KeyWaitCycleIsIdle : Prop :=
  ∀ (s : State) (rest : List HostStep) (x : Reg), CycleIsNext s rest → Fetchable s →
    decodeBytes (Memory.readBytes s.mem s.pc.toNat 2) = .ok (.ldVxK x, []) →
    (∀ k : Nat, k < 16 → keyState s k = some false) →
    ∃ t : State, step s = .next t ∧ ∀ p : Part, p.same s t

/-- 44_keypad_and_timers.md, tick() (R186): tick takes 1 from each timer that is above 0, independently, leaves a zero timer at 0,
and changes nothing else. -/
def Obligations.TickCountsBothTimersDown : Prop :=
  ∀ (s : State) (rest : List HostStep), s.host = .tick :: rest → ∃ t : State, step s = .next t ∧
    t.dt.toNat = s.dt.toNat - 1 ∧ t.st.toNat = s.st.toNat - 1 ∧
    (∀ p : Part, p ≠ .dt → p ≠ .st → p.same s t) ∧ t.trace = s.trace ∧ t.host = rest

/-- 44_keypad_and_timers.md, setKey (R187; the refusal of an index above 15 is D27, log 9): it changes the one key state. -/
def Obligations.SetKeyChangesOneKey : Prop :=
  ∀ (s : State) (rest : List HostStep) (k : Nat) (b : Bool), s.host = .setKey k b :: rest →
    (k < 16 → ∃ t : State, step s = .next t ∧ (∀ j : Nat, keyState t j = if j = k then some b else keyState s j) ∧
      (∀ p : Part, p ≠ .key → p.same s t) ∧ t.trace = s.trace ∧ t.host = rest) ∧
    (16 ≤ k → step s = .refused .keyIndexOutsideKeypad)

/-- 20_memory.md R67, 70_reset_and_hazards.md R242, R244 (D2, D3, D23, D27; the phase is the model's own, log 4): right after reset a
program of at most the region's capacity is copied to PROG_BASE, the machine is booted and nothing else changes; a longer one
returns OutOfMemory with nothing copied; once booted the transaction is refused, and before that a cycle is. -/
def Obligations.LoadProgramCopiesOrFails : Prop :=
  (∀ (s : State) (rest : List HostStep) (bs : List Byte), s.host = .loadProgram bs :: rest →
    (s.phase = .fresh → bs.length ≤ progEnd - progBase → ∃ t : State, step s = .next t ∧
      (∀ k : Nat, k < bs.length → Memory.read t.mem (progBase + k) = bs.getD k 0) ∧
      MemSameOutside progBase bs.length s t ∧ (∀ p : Part, p ≠ .mem → p.same s t) ∧ t.trace = s.trace ∧ t.phase = .loaded ∧
      t.host = rest) ∧
    (s.phase = .fresh → progEnd - progBase < bs.length → step s = .fault (.outOfMemory (s.setHost rest))) ∧
    (s.phase ≠ .fresh → step s = .refused .loadOutsideBoot)) ∧
  ∀ (s : State) (rest : List HostStep), CycleIsInvoked s rest → s.phase = .fresh → step s = .refused .cycleBeforeBoot

/-- 44_keypad_and_timers.md R188 (D22), R185, R186, 70_reset_and_hazards.md R240: over every step, the tone is on exactly while the
sound timer is nonzero; it starts only by a step that is itself a cycle of LD ST,Vx with a nonzero Vx; it stops only by the tick
that takes ST from 1 to 0, a cycle of LD ST,Vx with a zero Vx, or the Host's reset. -/
def Obligations.ToneStartsOnlyByLoadSt : Prop :=
  ∀ s t : State, step s = .next t →
    (tone t = true ↔ t.st.toNat ≠ 0) ∧
    (toneEvent s t = some .becameNonzero → s.st.toNat = 0 ∧ ∃ x : Reg, NextCycleRuns s (.ldStVx x) ∧ t.st = s.reg x ∧
      (s.reg x).toNat ≠ 0) ∧
    (toneEvent s t = some .reachedZero ↔ s.st.toNat ≠ 0 ∧ t.st.toNat = 0) ∧
    (toneEvent s t = some .reachedZero → (s.st.toNat = 1 ∧ ∃ rest, s.host = .tick :: rest) ∨
      (∃ x : Reg, NextCycleRuns s (.ldStVx x) ∧ (s.reg x).toNat = 0) ∨ ∃ rest, s.host = .reset :: rest)

/-- 44_keypad_and_timers.md R182, R186, 10_state.md R25 (derived by the spec from R184, R186): the delay timer never increases over a
step unless that step is itself a cycle of LD DT,Vx, which leaves Vx in it. -/
def Obligations.DelayTimerNeverRisesByItself : Prop :=
  ∀ s t : State, step s = .next t → t.dt.toNat ≤ s.dt.toNat ∨ ∃ x : Reg, NextCycleRuns s (.ldDtVx x) ∧ t.dt = s.reg x
end

