-- ==== Sys2Proof/Laws/Decode.lean ====
section
/-! SUPPORT. The fields of a word: each extraction undoes the formats' concatenations (spec/30_encoding.md R91 to R94). -/

namespace Sys2Proof

theorem toNat_wordOf (f : Fields) :
    (wordOf f).toNat = f.op.toNat * 4096 + f.x.toNat * 256 + f.y.toNat * 16 + f.n.toNat := by
  have h1 := f.x.isLt
  have h2 := f.y.isLt
  have h3 := f.n.isLt
  simp only [wordOf, BitVec.toNat_append, Nat.shiftLeft_eq]
  rw [← Nat.shiftLeft_eq, ← Nat.shiftLeft_add_eq_or_of_lt h3, ← Nat.shiftLeft_eq, ← Nat.shiftLeft_add_eq_or_of_lt h2,
    ← Nat.shiftLeft_eq, ← Nat.shiftLeft_add_eq_or_of_lt h1]
  simp only [Nat.shiftLeft_eq]
  omega

theorem toNat_addressOf (f : Fields) : (addressOf f).toNat = f.x.toNat * 256 + f.y.toNat * 16 + f.n.toNat := by
  have h2 := f.y.isLt
  have h3 := f.n.isLt
  simp only [addressOf, BitVec.toNat_append]
  rw [← Nat.shiftLeft_add_eq_or_of_lt h3, ← Nat.shiftLeft_add_eq_or_of_lt h2]
  simp only [Nat.shiftLeft_eq]
  omega

theorem toNat_immediateOf (f : Fields) : (immediateOf f).toNat = f.y.toNat * 16 + f.n.toNat := by
  have h3 := f.n.isLt
  simp only [immediateOf, BitVec.toNat_append]
  rw [← Nat.shiftLeft_add_eq_or_of_lt h3, Nat.shiftLeft_eq]

theorem fieldsOf_op (w : Word) : (fieldsOf w).op.toNat = w.toNat / 4096 := by
  have := w.isLt
  simp only [fieldsOf, BitVec.extractLsb'_toNat, Nat.shiftRight_eq_div_pow]
  omega

theorem fieldsOf_x (w : Word) : (fieldsOf w).x.toNat = w.toNat / 256 % 16 := by
  simp [fieldsOf, BitVec.extractLsb'_toNat, Nat.shiftRight_eq_div_pow]

theorem fieldsOf_y (w : Word) : (fieldsOf w).y.toNat = w.toNat / 16 % 16 := by
  simp [fieldsOf, BitVec.extractLsb'_toNat, Nat.shiftRight_eq_div_pow]

theorem fieldsOf_n (w : Word) : (fieldsOf w).n.toNat = w.toNat % 16 := by
  simp [fieldsOf, BitVec.extractLsb'_toNat]

/-- Format NNN has its opcode nibble on top and nnn below (R94). -/
theorem toNat_formNNN (op : Nibble) (nnn : Addr12) : (formNNN op nnn).toNat = op.toNat * 4096 + nnn.toNat := by
  simp only [formNNN, BitVec.toNat_append]
  rw [← Nat.shiftLeft_add_eq_or_of_lt nnn.isLt, Nat.shiftLeft_eq]

/-- Formats XKK and X (R94). -/
theorem toNat_formXKK (op : Nibble) (x : Reg) (kk : Byte) :
    (formXKK op x kk).toNat = op.toNat * 4096 + x.toNat * 256 + kk.toNat := by
  have h1 := x.isLt
  have h2 := kk.isLt
  simp only [formXKK, BitVec.toNat_append]
  rw [← Nat.shiftLeft_add_eq_or_of_lt h2, ← Nat.shiftLeft_add_eq_or_of_lt h1]
  simp only [Nat.shiftLeft_eq]
  omega

/-- Formats XY and XYN (R94): the word of the four fields. -/
theorem formXYN_eq_wordOf (op : Nibble) (x y : Reg) (n : Nibble) : formXYN op x y n = wordOf ⟨op, x, y, n⟩ := rfl

end Sys2Proof
end

