-- ==== Sys2Proof/Laws/Memory.lean ====
section
/-! SUPPORT. The laws of memory: a read after a write, the canonical form and the program region kept by every operation. None of
the read laws needs the canonical form as a premise. -/

namespace Sys2Proof.Machine

/-! ### Read after write -/

theorem Memory.read_eq_unlisted {m : Memory} {a : Nat} (h : ∀ c ∈ m, c.1 ≠ a) : Memory.read m a = Memory.unlisted a := by
  induction m with
  | nil => rfl
  | cons c m ih => simp_all [Memory.read]

theorem Memory.read_filter_same (m : Memory) (a : Nat) :
    Memory.read (m.filter (fun c => c.1 != a)) a = Memory.unlisted a :=
  Memory.read_eq_unlisted (by simp)

theorem Memory.read_filter_other (m : Memory) {a b : Nat} (h : b ≠ a) :
    Memory.read (m.filter (fun c => c.1 != a)) b = Memory.read m b := by
  induction m with
  | nil => rfl
  | cons c m ih => by_cases hc : c.1 = a <;> simp_all [Memory.read, Ne.symm h]

theorem Memory.read_insert_same (m : Memory) (a : Nat) (b : Byte) (h : ∀ c ∈ m, c.1 ≠ a) :
    Memory.read (Memory.insert a b m) a = b := by
  induction m with
  | nil => simp [Memory.insert, Memory.read]
  | cons c m ih => by_cases hc : a < c.1 <;> simp_all [Memory.insert, Memory.read, Nat.not_lt.mpr]

theorem Memory.read_insert_other (m : Memory) {a a' : Nat} (b : Byte) (h : a' ≠ a) :
    Memory.read (Memory.insert a b m) a' = Memory.read m a' := by
  induction m with
  | nil => simp [Memory.insert, Memory.read, Ne.symm h]
  | cons c m ih => by_cases hc : a < c.1 <;> simp_all [Memory.insert, Memory.read, Ne.symm h, Nat.not_lt.mpr]

/-- Writing a byte and reading it back returns the byte written (R72); a write leaves every other byte alone. -/
theorem Memory.read_write (m : Memory) (a a' : Nat) (b : Byte) :
    Memory.read (Memory.write m a b) a' = if a' = a then b else Memory.read m a' := by
  unfold Memory.write
  split
  · next hb =>
    split
    · next h => subst h; rw [Memory.read_filter_same, hb]
    · next h => exact Memory.read_filter_other m h
  · split
    · next h => subst h; exact Memory.read_insert_same _ _ _ (by simp)
    · next h => rw [Memory.read_insert_other _ _ h, Memory.read_filter_other m h]

@[simp] theorem Memory.read_write_same (m : Memory) (a : Nat) (b : Byte) : Memory.read (Memory.write m a b) a = b := by
  simp [Memory.read_write]

theorem Memory.read_write_other (m : Memory) {a a' : Nat} (b : Byte) (h : a' ≠ a) :
    Memory.read (Memory.write m a b) a' = Memory.read m a' := by
  simp [Memory.read_write, h]

/-- What a run of writes leaves at each address. -/
theorem Memory.read_writeBytes (bs : List Byte) : ∀ (m : Memory) (a a' : Nat),
    Memory.read (Memory.writeBytes m a bs) a' =
      if h : a ≤ a' ∧ a' < a + bs.length then bs[a' - a]'(by omega) else Memory.read m a' := by
  induction bs with
  | nil => intro m a a'; rw [dif_neg (by simp)]; rfl
  | cons b bs ih =>
    intro m a a'
    rw [Memory.writeBytes, ih, Memory.read_write]
    by_cases h1 : a' = a
    · subst h1
      simp
    · by_cases h2 : a + 1 ≤ a' ∧ a' < a + 1 + bs.length
      · have e : a' - a = (a' - (a + 1)) + 1 := by omega
        rw [dif_pos h2, dif_pos (by simp only [List.length_cons]; omega)]
        simp only [e, List.getElem_cons_succ]
      · rw [dif_neg h2, if_neg h1, dif_neg (by simp only [List.length_cons]; omega)]

@[simp] theorem Memory.length_readBytes (m : Memory) (a n : Nat) : (Memory.readBytes m a n).length = n := by
  induction n generalizing a with
  | zero => rfl
  | succ n ih => simp [Memory.readBytes, ih]

theorem Memory.getElem_readBytes (m : Memory) (n : Nat) : ∀ (a k : Nat) (h : k < (Memory.readBytes m a n).length),
    (Memory.readBytes m a n)[k] = Memory.read m (a + k) := by
  induction n with
  | zero => intro a k h; simp at h
  | succ n ih =>
    intro a k h
    cases k with
    | zero => rfl
    | succ k => simp only [Memory.readBytes, List.getElem_cons_succ, ih, Nat.add_assoc, Nat.add_comm 1 k]

/-! ### The canonical form -/

theorem Memory.mem_insert {m : Memory} {a : Nat} {b : Byte} {c : Host.Cell} (h : c ∈ Memory.insert a b m) :
    c = (a, b) ∨ c ∈ m := by
  induction m with
  | nil => simpa [Memory.insert] using h
  | cons d m ih =>
    unfold Memory.insert at h
    split at h
    · simpa using h
    · rcases List.mem_cons.mp h with h | h
      · exact .inr (by simp [h])
      · rcases ih h with h | h <;> simp [h]

theorem Memory.insert_rising {m : Memory} {a : Nat} (b : Byte) (hs : m.Pairwise (fun c d => c.1 < d.1))
    (ha : ∀ c ∈ m, c.1 ≠ a) : (Memory.insert a b m).Pairwise (fun c d => c.1 < d.1) := by
  induction m with
  | nil => simp [Memory.insert]
  | cons d m ih =>
    obtain ⟨hd, hm⟩ := List.pairwise_cons.mp hs
    unfold Memory.insert
    split
    · next h =>
      refine List.pairwise_cons.mpr ⟨fun c hc => ?_, hs⟩
      rcases List.mem_cons.mp hc with rfl | hc
      · exact h
      · exact Nat.lt_trans h (hd c hc)
    · next h =>
      refine List.pairwise_cons.mpr ⟨fun c hc => ?_, ih hm (fun c hc => ha c (by simp [hc]))⟩
      rcases Memory.mem_insert hc with rfl | hc
      · have : d.1 ≠ a := ha d (by simp)
        simp only at h ⊢
        omega
      · exact hd c hc

/-- Every cell a write leaves listed was listed before or is the one written. -/
theorem Memory.mem_write {m : Memory} {a : Nat} {b : Byte} {c : Host.Cell} (h : c ∈ Memory.write m a b) :
    c ∈ m ∨ (c = (a, b) ∧ b ≠ Memory.unlisted a) := by
  unfold Memory.write at h
  split at h
  · exact .inl (List.mem_filter.mp h).1
  · next hb =>
    rcases Memory.mem_insert h with h | h
    · exact .inr ⟨h, hb⟩
    · exact .inl (List.mem_filter.mp h).1

/-- A write keeps the canonical form. -/
theorem Memory.wf_write {m : Memory} (hm : Memory.wf m) (a : Nat) (b : Byte) : Memory.wf (Memory.write m a b) := by
  refine ⟨?_, fun c hc => ?_⟩
  · unfold Memory.write
    split
    · exact hm.1.filter _
    · exact Memory.insert_rising b (hm.1.filter _) (by simp)
  · rcases Memory.mem_write hc with hc | ⟨rfl, hb⟩
    · exact hm.2 c hc
    · exact hb

/-- A run of writes keeps the canonical form. -/
theorem Memory.wf_writeBytes (bs : List Byte) : ∀ {m : Memory}, Memory.wf m → ∀ a : Nat, Memory.wf (Memory.writeBytes m a bs) := by
  induction bs with
  | nil => intro m hm a; exact hm
  | cons b bs ih => intro m hm a; exact ih (Memory.wf_write hm a b) (a + 1)

/-- Reset memory has the canonical form. -/
theorem Memory.wf_reset : Memory.wf State.reset.mem := by decide

/-- A write into the program region leaves memory listed there only. -/
theorem Memory.inProgramRegion_write {m : Memory} (hm : Memory.inProgramRegion m) {a : Nat} (b : Byte)
    (h1 : progBase ≤ a) (h2 : a < progEnd) : Memory.inProgramRegion (Memory.write m a b) := by
  intro c hc
  rcases Memory.mem_write hc with hc | ⟨rfl, -⟩
  · exact hm c hc
  · exact ⟨h1, h2⟩

theorem Memory.inProgramRegion_writeBytes (bs : List Byte) : ∀ {m : Memory}, Memory.inProgramRegion m → ∀ a : Nat, progBase ≤ a →
    a + bs.length ≤ progEnd → Memory.inProgramRegion (Memory.writeBytes m a bs) := by
  induction bs with
  | nil => intro m hm a _ _; exact hm
  | cons b bs ih =>
    intro m hm a h1 h2
    simp only [List.length_cons] at h2
    exact ih (Memory.inProgramRegion_write hm b h1 (by omega)) (a + 1) (by omega) (by omega)

/-- With memory listed in the program region only, the reserved low region reads as after reset (R68). -/
theorem Memory.read_low {m : Memory} (hm : Memory.inProgramRegion m) {a : Nat} (h : a < progBase) :
    Memory.read m a = Memory.unlisted a :=
  Memory.read_eq_unlisted (fun c hc => by have := (hm c hc).1; omega)

end Sys2Proof.Machine
end

