-- ==== Sys2Proof/Laws/State.lean ====
section
/-! SUPPORT. One lemma per field per update of the state, so that no later proof unfolds a record update; then the register file's
two laws. -/

namespace Sys2Proof.Machine

variable (s : State)

/-! #### State.setReg -/

@[simp] theorem State.setReg_v (x : Reg) (b : Byte) : (s.setReg x b).v = s.v.set x.toNat b x.isLt := rfl
@[simp] theorem State.setReg_pc (x : Reg) (b : Byte) : (s.setReg x b).pc = s.pc := rfl
@[simp] theorem State.setReg_i (x : Reg) (b : Byte) : (s.setReg x b).i = s.i := rfl
@[simp] theorem State.setReg_dt (x : Reg) (b : Byte) : (s.setReg x b).dt = s.dt := rfl
@[simp] theorem State.setReg_st (x : Reg) (b : Byte) : (s.setReg x b).st = s.st := rfl
@[simp] theorem State.setReg_sp (x : Reg) (b : Byte) : (s.setReg x b).sp = s.sp := rfl
@[simp] theorem State.setReg_stack (x : Reg) (b : Byte) : (s.setReg x b).stack = s.stack := rfl
@[simp] theorem State.setReg_mem (x : Reg) (b : Byte) : (s.setReg x b).mem = s.mem := rfl
@[simp] theorem State.setReg_fb (x : Reg) (b : Byte) : (s.setReg x b).fb = s.fb := rfl
@[simp] theorem State.setReg_key (x : Reg) (b : Byte) : (s.setReg x b).key = s.key := rfl
@[simp] theorem State.setReg_draws (x : Reg) (b : Byte) : (s.setReg x b).draws = s.draws := rfl
@[simp] theorem State.setReg_trace (x : Reg) (b : Byte) : (s.setReg x b).trace = s.trace := rfl
@[simp] theorem State.setReg_phase (x : Reg) (b : Byte) : (s.setReg x b).phase = s.phase := rfl
@[simp] theorem State.setReg_host (x : Reg) (b : Byte) : (s.setReg x b).host = s.host := rfl

/-! #### State.setPc -/

@[simp] theorem State.setPc_v (t : Word) : (s.setPc t).v = s.v := rfl
@[simp] theorem State.setPc_pc (t : Word) : (s.setPc t).pc = t := rfl
@[simp] theorem State.setPc_i (t : Word) : (s.setPc t).i = s.i := rfl
@[simp] theorem State.setPc_dt (t : Word) : (s.setPc t).dt = s.dt := rfl
@[simp] theorem State.setPc_st (t : Word) : (s.setPc t).st = s.st := rfl
@[simp] theorem State.setPc_sp (t : Word) : (s.setPc t).sp = s.sp := rfl
@[simp] theorem State.setPc_stack (t : Word) : (s.setPc t).stack = s.stack := rfl
@[simp] theorem State.setPc_mem (t : Word) : (s.setPc t).mem = s.mem := rfl
@[simp] theorem State.setPc_fb (t : Word) : (s.setPc t).fb = s.fb := rfl
@[simp] theorem State.setPc_key (t : Word) : (s.setPc t).key = s.key := rfl
@[simp] theorem State.setPc_draws (t : Word) : (s.setPc t).draws = s.draws := rfl
@[simp] theorem State.setPc_trace (t : Word) : (s.setPc t).trace = s.trace := rfl
@[simp] theorem State.setPc_phase (t : Word) : (s.setPc t).phase = s.phase := rfl
@[simp] theorem State.setPc_host (t : Word) : (s.setPc t).host = s.host := rfl
@[simp] theorem State.setPc_reg (t : Word) (r : Reg) : (s.setPc t).reg r = s.reg r := rfl

/-! #### State.advancePc -/

@[simp] theorem State.advancePc_v : s.advancePc.v = s.v := rfl
@[simp] theorem State.advancePc_pc : s.advancePc.pc = s.pc + 2 := rfl
@[simp] theorem State.advancePc_i : s.advancePc.i = s.i := rfl
@[simp] theorem State.advancePc_dt : s.advancePc.dt = s.dt := rfl
@[simp] theorem State.advancePc_st : s.advancePc.st = s.st := rfl
@[simp] theorem State.advancePc_sp : s.advancePc.sp = s.sp := rfl
@[simp] theorem State.advancePc_stack : s.advancePc.stack = s.stack := rfl
@[simp] theorem State.advancePc_mem : s.advancePc.mem = s.mem := rfl
@[simp] theorem State.advancePc_fb : s.advancePc.fb = s.fb := rfl
@[simp] theorem State.advancePc_key : s.advancePc.key = s.key := rfl
@[simp] theorem State.advancePc_draws : s.advancePc.draws = s.draws := rfl
@[simp] theorem State.advancePc_trace : s.advancePc.trace = s.trace := rfl
@[simp] theorem State.advancePc_phase : s.advancePc.phase = s.phase := rfl
@[simp] theorem State.advancePc_host : s.advancePc.host = s.host := rfl
@[simp] theorem State.advancePc_reg (r : Reg) : s.advancePc.reg r = s.reg r := rfl

/-! #### State.rewindPc -/

@[simp] theorem State.rewindPc_v : s.rewindPc.v = s.v := rfl
@[simp] theorem State.rewindPc_pc : s.rewindPc.pc = s.pc - 2 := rfl
@[simp] theorem State.rewindPc_i : s.rewindPc.i = s.i := rfl
@[simp] theorem State.rewindPc_dt : s.rewindPc.dt = s.dt := rfl
@[simp] theorem State.rewindPc_st : s.rewindPc.st = s.st := rfl
@[simp] theorem State.rewindPc_sp : s.rewindPc.sp = s.sp := rfl
@[simp] theorem State.rewindPc_stack : s.rewindPc.stack = s.stack := rfl
@[simp] theorem State.rewindPc_mem : s.rewindPc.mem = s.mem := rfl
@[simp] theorem State.rewindPc_fb : s.rewindPc.fb = s.fb := rfl
@[simp] theorem State.rewindPc_key : s.rewindPc.key = s.key := rfl
@[simp] theorem State.rewindPc_draws : s.rewindPc.draws = s.draws := rfl
@[simp] theorem State.rewindPc_trace : s.rewindPc.trace = s.trace := rfl
@[simp] theorem State.rewindPc_phase : s.rewindPc.phase = s.phase := rfl
@[simp] theorem State.rewindPc_host : s.rewindPc.host = s.host := rfl
@[simp] theorem State.rewindPc_reg (r : Reg) : s.rewindPc.reg r = s.reg r := rfl

/-! #### State.setI -/

@[simp] theorem State.setI_v (t : Word) : (s.setI t).v = s.v := rfl
@[simp] theorem State.setI_pc (t : Word) : (s.setI t).pc = s.pc := rfl
@[simp] theorem State.setI_i (t : Word) : (s.setI t).i = t := rfl
@[simp] theorem State.setI_dt (t : Word) : (s.setI t).dt = s.dt := rfl
@[simp] theorem State.setI_st (t : Word) : (s.setI t).st = s.st := rfl
@[simp] theorem State.setI_sp (t : Word) : (s.setI t).sp = s.sp := rfl
@[simp] theorem State.setI_stack (t : Word) : (s.setI t).stack = s.stack := rfl
@[simp] theorem State.setI_mem (t : Word) : (s.setI t).mem = s.mem := rfl
@[simp] theorem State.setI_fb (t : Word) : (s.setI t).fb = s.fb := rfl
@[simp] theorem State.setI_key (t : Word) : (s.setI t).key = s.key := rfl
@[simp] theorem State.setI_draws (t : Word) : (s.setI t).draws = s.draws := rfl
@[simp] theorem State.setI_trace (t : Word) : (s.setI t).trace = s.trace := rfl
@[simp] theorem State.setI_phase (t : Word) : (s.setI t).phase = s.phase := rfl
@[simp] theorem State.setI_host (t : Word) : (s.setI t).host = s.host := rfl
@[simp] theorem State.setI_reg (t : Word) (r : Reg) : (s.setI t).reg r = s.reg r := rfl

/-! #### State.setDt -/

@[simp] theorem State.setDt_v (b : Byte) : (s.setDt b).v = s.v := rfl
@[simp] theorem State.setDt_pc (b : Byte) : (s.setDt b).pc = s.pc := rfl
@[simp] theorem State.setDt_i (b : Byte) : (s.setDt b).i = s.i := rfl
@[simp] theorem State.setDt_dt (b : Byte) : (s.setDt b).dt = b := rfl
@[simp] theorem State.setDt_st (b : Byte) : (s.setDt b).st = s.st := rfl
@[simp] theorem State.setDt_sp (b : Byte) : (s.setDt b).sp = s.sp := rfl
@[simp] theorem State.setDt_stack (b : Byte) : (s.setDt b).stack = s.stack := rfl
@[simp] theorem State.setDt_mem (b : Byte) : (s.setDt b).mem = s.mem := rfl
@[simp] theorem State.setDt_fb (b : Byte) : (s.setDt b).fb = s.fb := rfl
@[simp] theorem State.setDt_key (b : Byte) : (s.setDt b).key = s.key := rfl
@[simp] theorem State.setDt_draws (b : Byte) : (s.setDt b).draws = s.draws := rfl
@[simp] theorem State.setDt_trace (b : Byte) : (s.setDt b).trace = s.trace := rfl
@[simp] theorem State.setDt_phase (b : Byte) : (s.setDt b).phase = s.phase := rfl
@[simp] theorem State.setDt_host (b : Byte) : (s.setDt b).host = s.host := rfl
@[simp] theorem State.setDt_reg (b : Byte) (r : Reg) : (s.setDt b).reg r = s.reg r := rfl

/-! #### State.setSt -/

@[simp] theorem State.setSt_v (b : Byte) : (s.setSt b).v = s.v := rfl
@[simp] theorem State.setSt_pc (b : Byte) : (s.setSt b).pc = s.pc := rfl
@[simp] theorem State.setSt_i (b : Byte) : (s.setSt b).i = s.i := rfl
@[simp] theorem State.setSt_dt (b : Byte) : (s.setSt b).dt = s.dt := rfl
@[simp] theorem State.setSt_st (b : Byte) : (s.setSt b).st = b := rfl
@[simp] theorem State.setSt_sp (b : Byte) : (s.setSt b).sp = s.sp := rfl
@[simp] theorem State.setSt_stack (b : Byte) : (s.setSt b).stack = s.stack := rfl
@[simp] theorem State.setSt_mem (b : Byte) : (s.setSt b).mem = s.mem := rfl
@[simp] theorem State.setSt_fb (b : Byte) : (s.setSt b).fb = s.fb := rfl
@[simp] theorem State.setSt_key (b : Byte) : (s.setSt b).key = s.key := rfl
@[simp] theorem State.setSt_draws (b : Byte) : (s.setSt b).draws = s.draws := rfl
@[simp] theorem State.setSt_trace (b : Byte) : (s.setSt b).trace = s.trace := rfl
@[simp] theorem State.setSt_phase (b : Byte) : (s.setSt b).phase = s.phase := rfl
@[simp] theorem State.setSt_host (b : Byte) : (s.setSt b).host = s.host := rfl
@[simp] theorem State.setSt_reg (b : Byte) (r : Reg) : (s.setSt b).reg r = s.reg r := rfl

/-! #### State.setMem -/

@[simp] theorem State.setMem_v (m : Memory) : (s.setMem m).v = s.v := rfl
@[simp] theorem State.setMem_pc (m : Memory) : (s.setMem m).pc = s.pc := rfl
@[simp] theorem State.setMem_i (m : Memory) : (s.setMem m).i = s.i := rfl
@[simp] theorem State.setMem_dt (m : Memory) : (s.setMem m).dt = s.dt := rfl
@[simp] theorem State.setMem_st (m : Memory) : (s.setMem m).st = s.st := rfl
@[simp] theorem State.setMem_sp (m : Memory) : (s.setMem m).sp = s.sp := rfl
@[simp] theorem State.setMem_stack (m : Memory) : (s.setMem m).stack = s.stack := rfl
@[simp] theorem State.setMem_mem (m : Memory) : (s.setMem m).mem = m := rfl
@[simp] theorem State.setMem_fb (m : Memory) : (s.setMem m).fb = s.fb := rfl
@[simp] theorem State.setMem_key (m : Memory) : (s.setMem m).key = s.key := rfl
@[simp] theorem State.setMem_draws (m : Memory) : (s.setMem m).draws = s.draws := rfl
@[simp] theorem State.setMem_trace (m : Memory) : (s.setMem m).trace = s.trace := rfl
@[simp] theorem State.setMem_phase (m : Memory) : (s.setMem m).phase = s.phase := rfl
@[simp] theorem State.setMem_host (m : Memory) : (s.setMem m).host = s.host := rfl
@[simp] theorem State.setMem_reg (m : Memory) (r : Reg) : (s.setMem m).reg r = s.reg r := rfl

/-! #### State.setFb -/

@[simp] theorem State.setFb_v (f : Framebuffer) : (s.setFb f).v = s.v := rfl
@[simp] theorem State.setFb_pc (f : Framebuffer) : (s.setFb f).pc = s.pc := rfl
@[simp] theorem State.setFb_i (f : Framebuffer) : (s.setFb f).i = s.i := rfl
@[simp] theorem State.setFb_dt (f : Framebuffer) : (s.setFb f).dt = s.dt := rfl
@[simp] theorem State.setFb_st (f : Framebuffer) : (s.setFb f).st = s.st := rfl
@[simp] theorem State.setFb_sp (f : Framebuffer) : (s.setFb f).sp = s.sp := rfl
@[simp] theorem State.setFb_stack (f : Framebuffer) : (s.setFb f).stack = s.stack := rfl
@[simp] theorem State.setFb_mem (f : Framebuffer) : (s.setFb f).mem = s.mem := rfl
@[simp] theorem State.setFb_fb (f : Framebuffer) : (s.setFb f).fb = f := rfl
@[simp] theorem State.setFb_key (f : Framebuffer) : (s.setFb f).key = s.key := rfl
@[simp] theorem State.setFb_draws (f : Framebuffer) : (s.setFb f).draws = s.draws := rfl
@[simp] theorem State.setFb_trace (f : Framebuffer) : (s.setFb f).trace = s.trace := rfl
@[simp] theorem State.setFb_phase (f : Framebuffer) : (s.setFb f).phase = s.phase := rfl
@[simp] theorem State.setFb_host (f : Framebuffer) : (s.setFb f).host = s.host := rfl
@[simp] theorem State.setFb_reg (f : Framebuffer) (r : Reg) : (s.setFb f).reg r = s.reg r := rfl

/-! #### State.setStack -/

@[simp] theorem State.setStack_v (p : Fin 17) (k : Vector Word 16) : (s.setStack p k).v = s.v := rfl
@[simp] theorem State.setStack_pc (p : Fin 17) (k : Vector Word 16) : (s.setStack p k).pc = s.pc := rfl
@[simp] theorem State.setStack_i (p : Fin 17) (k : Vector Word 16) : (s.setStack p k).i = s.i := rfl
@[simp] theorem State.setStack_dt (p : Fin 17) (k : Vector Word 16) : (s.setStack p k).dt = s.dt := rfl
@[simp] theorem State.setStack_st (p : Fin 17) (k : Vector Word 16) : (s.setStack p k).st = s.st := rfl
@[simp] theorem State.setStack_sp (p : Fin 17) (k : Vector Word 16) : (s.setStack p k).sp = p := rfl
@[simp] theorem State.setStack_stack (p : Fin 17) (k : Vector Word 16) : (s.setStack p k).stack = k := rfl
@[simp] theorem State.setStack_mem (p : Fin 17) (k : Vector Word 16) : (s.setStack p k).mem = s.mem := rfl
@[simp] theorem State.setStack_fb (p : Fin 17) (k : Vector Word 16) : (s.setStack p k).fb = s.fb := rfl
@[simp] theorem State.setStack_key (p : Fin 17) (k : Vector Word 16) : (s.setStack p k).key = s.key := rfl
@[simp] theorem State.setStack_draws (p : Fin 17) (k : Vector Word 16) : (s.setStack p k).draws = s.draws := rfl
@[simp] theorem State.setStack_trace (p : Fin 17) (k : Vector Word 16) : (s.setStack p k).trace = s.trace := rfl
@[simp] theorem State.setStack_phase (p : Fin 17) (k : Vector Word 16) : (s.setStack p k).phase = s.phase := rfl
@[simp] theorem State.setStack_host (p : Fin 17) (k : Vector Word 16) : (s.setStack p k).host = s.host := rfl
@[simp] theorem State.setStack_reg (p : Fin 17) (k : Vector Word 16) (r : Reg) : (s.setStack p k).reg r = s.reg r := rfl

/-! #### State.setKeys -/

@[simp] theorem State.setKeys_v (k : Vector Bool 16) : (s.setKeys k).v = s.v := rfl
@[simp] theorem State.setKeys_pc (k : Vector Bool 16) : (s.setKeys k).pc = s.pc := rfl
@[simp] theorem State.setKeys_i (k : Vector Bool 16) : (s.setKeys k).i = s.i := rfl
@[simp] theorem State.setKeys_dt (k : Vector Bool 16) : (s.setKeys k).dt = s.dt := rfl
@[simp] theorem State.setKeys_st (k : Vector Bool 16) : (s.setKeys k).st = s.st := rfl
@[simp] theorem State.setKeys_sp (k : Vector Bool 16) : (s.setKeys k).sp = s.sp := rfl
@[simp] theorem State.setKeys_stack (k : Vector Bool 16) : (s.setKeys k).stack = s.stack := rfl
@[simp] theorem State.setKeys_mem (k : Vector Bool 16) : (s.setKeys k).mem = s.mem := rfl
@[simp] theorem State.setKeys_fb (k : Vector Bool 16) : (s.setKeys k).fb = s.fb := rfl
@[simp] theorem State.setKeys_key (k : Vector Bool 16) : (s.setKeys k).key = k := rfl
@[simp] theorem State.setKeys_draws (k : Vector Bool 16) : (s.setKeys k).draws = s.draws := rfl
@[simp] theorem State.setKeys_trace (k : Vector Bool 16) : (s.setKeys k).trace = s.trace := rfl
@[simp] theorem State.setKeys_phase (k : Vector Bool 16) : (s.setKeys k).phase = s.phase := rfl
@[simp] theorem State.setKeys_host (k : Vector Bool 16) : (s.setKeys k).host = s.host := rfl
@[simp] theorem State.setKeys_reg (k : Vector Bool 16) (r : Reg) : (s.setKeys k).reg r = s.reg r := rfl

/-! #### State.setDraws -/

@[simp] theorem State.setDraws_v (n : Nat) : (s.setDraws n).v = s.v := rfl
@[simp] theorem State.setDraws_pc (n : Nat) : (s.setDraws n).pc = s.pc := rfl
@[simp] theorem State.setDraws_i (n : Nat) : (s.setDraws n).i = s.i := rfl
@[simp] theorem State.setDraws_dt (n : Nat) : (s.setDraws n).dt = s.dt := rfl
@[simp] theorem State.setDraws_st (n : Nat) : (s.setDraws n).st = s.st := rfl
@[simp] theorem State.setDraws_sp (n : Nat) : (s.setDraws n).sp = s.sp := rfl
@[simp] theorem State.setDraws_stack (n : Nat) : (s.setDraws n).stack = s.stack := rfl
@[simp] theorem State.setDraws_mem (n : Nat) : (s.setDraws n).mem = s.mem := rfl
@[simp] theorem State.setDraws_fb (n : Nat) : (s.setDraws n).fb = s.fb := rfl
@[simp] theorem State.setDraws_key (n : Nat) : (s.setDraws n).key = s.key := rfl
@[simp] theorem State.setDraws_draws (n : Nat) : (s.setDraws n).draws = n := rfl
@[simp] theorem State.setDraws_trace (n : Nat) : (s.setDraws n).trace = s.trace := rfl
@[simp] theorem State.setDraws_phase (n : Nat) : (s.setDraws n).phase = s.phase := rfl
@[simp] theorem State.setDraws_host (n : Nat) : (s.setDraws n).host = s.host := rfl
@[simp] theorem State.setDraws_reg (n : Nat) (r : Reg) : (s.setDraws n).reg r = s.reg r := rfl

/-! #### State.setTrace -/

@[simp] theorem State.setTrace_v (t : Option Instr) : (s.setTrace t).v = s.v := rfl
@[simp] theorem State.setTrace_pc (t : Option Instr) : (s.setTrace t).pc = s.pc := rfl
@[simp] theorem State.setTrace_i (t : Option Instr) : (s.setTrace t).i = s.i := rfl
@[simp] theorem State.setTrace_dt (t : Option Instr) : (s.setTrace t).dt = s.dt := rfl
@[simp] theorem State.setTrace_st (t : Option Instr) : (s.setTrace t).st = s.st := rfl
@[simp] theorem State.setTrace_sp (t : Option Instr) : (s.setTrace t).sp = s.sp := rfl
@[simp] theorem State.setTrace_stack (t : Option Instr) : (s.setTrace t).stack = s.stack := rfl
@[simp] theorem State.setTrace_mem (t : Option Instr) : (s.setTrace t).mem = s.mem := rfl
@[simp] theorem State.setTrace_fb (t : Option Instr) : (s.setTrace t).fb = s.fb := rfl
@[simp] theorem State.setTrace_key (t : Option Instr) : (s.setTrace t).key = s.key := rfl
@[simp] theorem State.setTrace_draws (t : Option Instr) : (s.setTrace t).draws = s.draws := rfl
@[simp] theorem State.setTrace_trace (t : Option Instr) : (s.setTrace t).trace = t := rfl
@[simp] theorem State.setTrace_phase (t : Option Instr) : (s.setTrace t).phase = s.phase := rfl
@[simp] theorem State.setTrace_host (t : Option Instr) : (s.setTrace t).host = s.host := rfl
@[simp] theorem State.setTrace_reg (t : Option Instr) (r : Reg) : (s.setTrace t).reg r = s.reg r := rfl

/-! #### State.setPhase -/

@[simp] theorem State.setPhase_v (p : Phase) : (s.setPhase p).v = s.v := rfl
@[simp] theorem State.setPhase_pc (p : Phase) : (s.setPhase p).pc = s.pc := rfl
@[simp] theorem State.setPhase_i (p : Phase) : (s.setPhase p).i = s.i := rfl
@[simp] theorem State.setPhase_dt (p : Phase) : (s.setPhase p).dt = s.dt := rfl
@[simp] theorem State.setPhase_st (p : Phase) : (s.setPhase p).st = s.st := rfl
@[simp] theorem State.setPhase_sp (p : Phase) : (s.setPhase p).sp = s.sp := rfl
@[simp] theorem State.setPhase_stack (p : Phase) : (s.setPhase p).stack = s.stack := rfl
@[simp] theorem State.setPhase_mem (p : Phase) : (s.setPhase p).mem = s.mem := rfl
@[simp] theorem State.setPhase_fb (p : Phase) : (s.setPhase p).fb = s.fb := rfl
@[simp] theorem State.setPhase_key (p : Phase) : (s.setPhase p).key = s.key := rfl
@[simp] theorem State.setPhase_draws (p : Phase) : (s.setPhase p).draws = s.draws := rfl
@[simp] theorem State.setPhase_trace (p : Phase) : (s.setPhase p).trace = s.trace := rfl
@[simp] theorem State.setPhase_phase (p : Phase) : (s.setPhase p).phase = p := rfl
@[simp] theorem State.setPhase_host (p : Phase) : (s.setPhase p).host = s.host := rfl
@[simp] theorem State.setPhase_reg (p : Phase) (r : Reg) : (s.setPhase p).reg r = s.reg r := rfl

/-! #### State.setHost -/

@[simp] theorem State.setHost_v (h : List HostStep) : (s.setHost h).v = s.v := rfl
@[simp] theorem State.setHost_pc (h : List HostStep) : (s.setHost h).pc = s.pc := rfl
@[simp] theorem State.setHost_i (h : List HostStep) : (s.setHost h).i = s.i := rfl
@[simp] theorem State.setHost_dt (h : List HostStep) : (s.setHost h).dt = s.dt := rfl
@[simp] theorem State.setHost_st (h : List HostStep) : (s.setHost h).st = s.st := rfl
@[simp] theorem State.setHost_sp (h : List HostStep) : (s.setHost h).sp = s.sp := rfl
@[simp] theorem State.setHost_stack (h : List HostStep) : (s.setHost h).stack = s.stack := rfl
@[simp] theorem State.setHost_mem (h : List HostStep) : (s.setHost h).mem = s.mem := rfl
@[simp] theorem State.setHost_fb (h : List HostStep) : (s.setHost h).fb = s.fb := rfl
@[simp] theorem State.setHost_key (h : List HostStep) : (s.setHost h).key = s.key := rfl
@[simp] theorem State.setHost_draws (h : List HostStep) : (s.setHost h).draws = s.draws := rfl
@[simp] theorem State.setHost_trace (h : List HostStep) : (s.setHost h).trace = s.trace := rfl
@[simp] theorem State.setHost_phase (h : List HostStep) : (s.setHost h).phase = s.phase := rfl
@[simp] theorem State.setHost_host (h : List HostStep) : (s.setHost h).host = h := rfl
@[simp] theorem State.setHost_reg (h : List HostStep) (r : Reg) : (s.setHost h).reg r = s.reg r := rfl

/-! #### The register file -/

/-- A register reads what was last written to it, and a write leaves every other register alone. -/
theorem State.reg_setReg (x r : Reg) (b : Byte) : (s.setReg x b).reg r = if x = r then b else s.reg r := by
  simp only [State.reg, State.setReg, Vector.getElem_set, BitVec.toNat_inj]

@[simp] theorem State.reg_setReg_same (x : Reg) (b : Byte) : (s.setReg x b).reg x = b := by
  simp [State.reg_setReg]

theorem State.reg_setReg_other {x r : Reg} (h : x ≠ r) (b : Byte) : (s.setReg x b).reg r = s.reg r := by
  simp [State.reg_setReg, h]

/-! #### The skip -/

/-- A skip adds 2 to the pc when its condition holds (R130 (e)). -/
@[simp] theorem State.skipIf_pc (c : Bool) : (s.skipIf c).pc = if c then s.pc + 2 else s.pc := by
  cases c <;> rfl

/-- A skip changes nothing but the pc. -/
theorem State.skipIf_eq_setPc (c : Bool) : s.skipIf c = s.setPc (if c then s.pc + 2 else s.pc) := by
  cases c <;> rfl

end Sys2Proof.Machine
end

