-- ==== Sys2Proof/Laws/Ops.lean ====
section
/-! SUPPORT. One lemma per shared operation that says everything it can do; later proofs cite these and do not unfold. -/

namespace Sys2Proof.Machine

/-! ### Sequencing and errors -/

@[simp] theorem andThen_next (s : State) (k : State → Result) : andThen (.next s) k = k s := rfl
@[simp] theorem andThen_fault (f : Fault) (k : State → Result) : andThen (.fault f) k = .fault f := rfl
@[simp] theorem andThen_refused (q : Refusal) (k : State → Result) : andThen (.refused q) k = .refused q := rfl

/-- A sequence completes exactly when both its parts do. -/
theorem andThen_eq_next {r : Result} {k : State → Result} {t : State} :
    andThen r k = .next t ↔ ∃ s, r = .next s ∧ k s = .next t := by
  cases r <;> simp

/-- An error is a fault of its kind that carries the state as it stands. -/
theorem raise_eq_fault (e : ErrorKind) (s : State) : ∃ f : Fault, raise e s = .fault f ∧ f.kind = e ∧ f.after = s := by
  cases e <;> exact ⟨_, rfl, rfl, rfl⟩

@[simp] theorem raise_ne_next (e : ErrorKind) (s t : State) : raise e s ≠ .next t := by cases e <;> simp [raise]

@[simp] theorem raise_ne_refused (e : ErrorKind) (s : State) (q : Refusal) : raise e s ≠ .refused q := by
  cases e <;> simp [raise]

@[simp] theorem raise_eq_fault_after {e : ErrorKind} {s : State} {f : Fault} (h : raise e s = .fault f) : f.after = s := by
  cases e <;> cases h <;> rfl

@[simp] theorem leaves_next (P : State → Prop) (t : State) : Leaves P (.next t) ↔ P t := Iff.rfl
@[simp] theorem leaves_fault (P : State → Prop) (f : Fault) : Leaves P (.fault f) ↔ P f.after := Iff.rfl
@[simp] theorem leaves_refused (P : State → Prop) (q : Refusal) : Leaves P (.refused q) := trivial

@[simp] theorem leaves_raise (P : State → Prop) (e : ErrorKind) (s : State) : Leaves P (raise e s) ↔ P s := by
  cases e <;> rfl

theorem leaves_andThen {P Q : State → Prop} {r : Result} {k : State → Result} (h : Leaves Q r)
    (hp : ∀ f, r = .fault f → P f.after) (hk : ∀ s, Q s → Leaves P (k s)) : Leaves P (andThen r k) := by
  cases r with
  | next s => exact hk s h
  | fault f => exact hp f rfl
  | refused q => trivial

/-- What both parts of a sequence keep, the sequence keeps, whether it completes or stops in its first part. -/
theorem leaves_andThen_same {P : State → Prop} {r : Result} {k : State → Result} (h : Leaves P r)
    (hk : ∀ s, P s → Leaves P (k s)) : Leaves P (andThen r k) :=
  leaves_andThen h (fun f hf => by rw [hf] at h; exact h) hk

theorem leaves_imp {P Q : State → Prop} {r : Result} (h : Leaves P r) (hpq : ∀ s, P s → Q s) : Leaves Q r := by
  cases r with
  | next s => exact hpq s h
  | fault f => exact hpq _ h
  | refused q => trivial

/-! ### The call stack -/

theorem push_below {s : State} (h : s.sp.val < 16) (a : Word) :
    push a s = .next (s.setStack ⟨s.sp.val + 1, by omega⟩ (s.stack.set s.sp.val a h)) := by
  simp [push, h]

theorem push_full {s : State} (h : s.sp.val = 16) (a : Word) : push a s = .fault (.stackOverflow s) := by
  simp [push, h, raise]

theorem popToPc_nonempty {s : State} (h : 0 < s.sp.val) :
    popToPc s = .next ((s.setStack ⟨s.sp.val - 1, by omega⟩ s.stack).setPc (s.stack[s.sp.val - 1]'(by omega))) := by
  simp [popToPc, h]

theorem popToPc_empty {s : State} (h : s.sp.val = 0) : popToPc s = .fault (.emptyStack s) := by
  simp [popToPc, h, raise]

/-! ### Memory access -/

theorem memRead_inside {a : Nat} (s : State) (h : a < 4096) : memRead s a = some (Memory.read s.mem a) := by
  rw [memRead, if_neg (by omega)]

theorem memRead_outside {a : Nat} (s : State) (h : 4096 ≤ a) : memRead s a = none := by
  rw [memRead, if_pos (by omega)]

theorem memWrite_inside {a : Nat} (b : Byte) (s : State) (h1 : progBase ≤ a) (h2 : a < progEnd) :
    memWrite a b s = .next (s.setMem (Memory.write s.mem a b)) := by
  unfold progBase at h1
  unfold progEnd at h2
  rw [memWrite, if_neg (by unfold progBase progEnd; omega)]

theorem memWrite_outside {a : Nat} (b : Byte) (s : State) (h : ¬ (progBase ≤ a ∧ a < progEnd)) :
    memWrite a b s = .fault (.outOfBounds s) := by
  unfold progBase progEnd at h
  rw [memWrite, if_pos (by unfold progBase progEnd; omega)]
  rfl

/-- A write that completes was inside the program region and changed the one byte. -/
theorem memWrite_eq_next {a : Nat} {b : Byte} {s t : State} (h : memWrite a b s = .next t) :
    t = s.setMem (Memory.write s.mem a b) ∧ progBase ≤ a ∧ a < progEnd := by
  by_cases hw : progBase ≤ a ∧ a < progEnd
  · rw [memWrite_inside _ _ hw.1 hw.2] at h
    exact ⟨(Host.Outcome.next.inj h).symm, hw⟩
  · rw [memWrite_outside _ _ hw] at h
    cases h

/-- What holds before a write, and after it if it completes, holds of whatever state the write leaves. -/
theorem leaves_memWrite {P : State → Prop} {a : Nat} {b : Byte} {s : State} (h : P s)
    (hw : ∀ t, memWrite a b s = .next t → P t) : Leaves P (memWrite a b s) := by
  by_cases hr : progBase ≤ a ∧ a < progEnd
  · have e := memWrite_inside b s hr.1 hr.2
    rw [e]
    exact hw _ e
  · rw [memWrite_outside _ _ hr]
    exact h

/-- A fetch succeeds exactly between PROG_BASE and PROG_END - 2. -/
theorem fetchWord_eq (s : State) : fetchWord s =
    if progBase ≤ s.pc.toNat ∧ s.pc.toNat + 2 ≤ progEnd then
      some (Memory.read s.mem s.pc.toNat ++ Memory.read s.mem (s.pc.toNat + 1)) else none := by
  unfold fetchWord progBase progEnd
  split <;> split <;> first | rfl | omega

theorem readSprite_inside {a n : Nat} (s : State) (h : a + n ≤ 4096) :
    readSprite s a n = some (Memory.readBytes s.mem a n) := by
  rw [readSprite, if_neg (by omega)]

theorem readSprite_outside {a n : Nat} (s : State) (h : 4096 < a + n) : readSprite s a n = none := by
  rw [readSprite, if_pos (by omega)]

/-! ### Pixels and keys -/

/-- A pixel read after a pixel was flipped. -/
theorem pixel_flipPixel (f : Framebuffer) {j k : Nat} (hj : j < 2048) (hk : k < 2048) :
    pixel (flipPixel f j) k = (pixel f k ^^ decide (j = k)) := by
  have h1 : j / 64 < 32 := by omega
  have h2 : k / 64 < 32 := by omega
  simp only [pixel, flipPixel, h1, h2, dif_pos, Vector.getElem_set]
  by_cases hr : j / 64 = k / 64
  · have hjk : (j % 64 = k % 64) ↔ j = k := by omega
    have h3 : j % 64 < 64 := Nat.mod_lt _ (by decide)
    simp [hr, BitVec.getLsbD_twoPow, h3, hjk]
  · have : j ≠ k := fun e => hr (by rw [e])
    simp [hr, this]

/-- Two framebuffers with the same 2048 pixels are the same. -/
theorem framebuffer_ext {f g : Framebuffer} (h : ∀ k : Nat, k < 2048 → pixel f k = pixel g k) : f = g := by
  ext r hr c hc
  have := h (r * 64 + c) (by omega)
  have h1 : (r * 64 + c) / 64 = r := by omega
  have h2 : (r * 64 + c) % 64 = c := by omega
  simpa [pixel, h1, h2, hr, BitVec.getLsbD_eq_getElem hc] using this

theorem keyState_inside (s : State) {k : Nat} (h : k < 16) : keyState s k = some s.key[k] := by
  simp [keyState, h]

theorem keyState_outside (s : State) {k : Nat} (h : 16 ≤ k) : keyState s k = none := by
  simp [keyState, h]

/-- The scan finds a key exactly when it is down and every lower one is up (R183). -/
theorem firstKey_eq_some {s : State} {k : Nat} : firstKey s = some k ↔
    keyState s k = some true ∧ ∀ j : Nat, j < k → keyState s j ≠ some true := by
  unfold firstKey
  rw [List.find?_range_eq_some]
  simp only [beq_iff_eq, List.mem_range, Bool.not_eq_true', beq_eq_false_iff_ne]
  constructor
  · rintro ⟨h1, -, h3⟩
    exact ⟨h1, h3⟩
  · rintro ⟨h1, h2⟩
    refine ⟨h1, ?_, h2⟩
    by_contra hk
    simp only [Config.nKeys] at hk
    rw [keyState_outside s (by omega)] at h1
    exact absurd h1 (by simp)

/-- The scan finds no key exactly when none is down. -/
theorem firstKey_eq_none {s : State} : firstKey s = none ↔ ∀ k : Nat, k < 16 → keyState s k ≠ some true := by
  simp [firstKey, Config.nKeys]

end Sys2Proof.Machine
end

