-- ==== Sys2Proof/Laws/Display.lean ====
section
/-! SUPPORT. What the XOR blitter's loops do: no two bits of one sprite land on one pixel, so each pixel is flipped at most once and
collisions are decided by the framebuffer before the draw (spec/43_display.md R173). -/

namespace Sys2Proof.Machine

/-- Pixel k is hit by a 1 bit among columns col to col + n - 1 of one sprite byte. -/
def ColsHit (xs ys b : Byte) (row n col k : Nat) : Prop :=
  ∃ c : Nat, col ≤ c ∧ c < col + n ∧ b.getLsbD (7 - c) = true ∧ pixelIndex xs ys row c = k

/-- Pixel k is hit by a 1 bit of the sprite's bytes, the first of them in the given row. -/
def RowsHit (xs ys : Byte) (bs : List Byte) (row k : Nat) : Prop :=
  ∃ (r : Nat) (h : r < bs.length), ColsHit xs ys bs[r] (row + r) 8 0 k

/-- What a drawing loop does: from d to e, exactly the pixels of the set are flipped, and the flag is raised if one of them was on. -/
structure Draws (hit : Nat → Prop) (d e : Drawing) : Prop where
  flips : ∀ k : Nat, k < 2048 → (pixel e.1 k = pixel d.1 k ↔ ¬ hit k)
  collides : e.2 = true ↔ d.2 = true ∨ ∃ k : Nat, hit k ∧ pixel d.1 k = true

theorem pixelIndex_lt (xs ys : Byte) (row col : Nat) : pixelIndex xs ys row col < 2048 := by
  simp only [pixelIndex, Config.dispH, Config.dispW]
  omega

/-- Distinct columns and rows of one sprite are distinct pixels: "8 ≤ 64" and "15 ≤ 32" (R173 (a)). -/
theorem pixelIndex_inj {xs ys : Byte} {row row' col col' : Nat} (h : pixelIndex xs ys row col = pixelIndex xs ys row' col')
    (hc : col < 8) (hc' : col' < 8) (hr : row < 15) (hr' : row' < 15) : row = row' ∧ col = col' := by
  simp only [pixelIndex, Config.dispH, Config.dispW] at h
  omega

/-- A loop after a loop, when the second hits none of the pixels of the first. -/
theorem Draws.trans {p q : Nat → Prop} {c d e : Drawing} (h1 : Draws p c d) (h2 : Draws q d e)
    (hq : ∀ k, q k → k < 2048) (hpq : ∀ k, p k → ¬ q k) : Draws (fun k => p k ∨ q k) c e := by
  refine ⟨fun k hk => ?_, ?_⟩
  · have a := h1.flips k hk
    have b := h2.flips k hk
    by_cases hpk : p k
    · have hqk := hpq k hpk
      simp only [hpk, hqk, not_true, not_false_eq_true, iff_true, iff_false, true_or] at a b ⊢
      rwa [b]
    · by_cases hqk : q k <;> simp only [hpk, hqk, not_true, not_false_eq_true, iff_true, iff_false, or_true, or_self] at a b ⊢
      · rwa [← a]
      · rw [b, a]
  · have key : ∀ k, q k → pixel d.1 k = pixel c.1 k := fun k hk =>
      (h1.flips k (hq k hk)).mpr (fun hpk => hpq k hpk hk)
    rw [h2.collides, h1.collides]
    constructor
    · rintro ((h | ⟨k, hk, hc⟩) | ⟨k, hk, hd⟩)
      · exact .inl h
      · exact .inr ⟨k, .inl hk, hc⟩
      · exact .inr ⟨k, .inr hk, by rw [← key k hk]; exact hd⟩
    · rintro (h | ⟨k, hk | hk, hc⟩)
      · exact .inl (.inl h)
      · exact .inl (.inr ⟨k, hk, hc⟩)
      · exact .inr ⟨k, hk, by rw [key k hk]; exact hc⟩

theorem Draws.congr {p q : Nat → Prop} {d e : Drawing} (h : Draws p d e) (hpq : ∀ k, p k ↔ q k) : Draws q d e := by
  have : p = q := funext fun k => propext (hpq k)
  exact this ▸ h

/-- One sprite bit (R171). -/
theorem draws_drawBit (d : Drawing) (bit : Bool) {j : Nat} (hj : j < 2048) :
    Draws (fun k => bit = true ∧ j = k) d (drawBit d bit j) := by
  cases bit
  · exact ⟨fun k hk => by simp [drawBit], by simp [drawBit]⟩
  · refine ⟨fun k hk => ?_, ?_⟩
    · simp only [drawBit, if_true, pixel_flipPixel d.1 hj hk, true_and]
      by_cases e : j = k <;> simp [e]
    · simp [drawBit]

/-- The columns of one sprite byte (R171). -/
theorem draws_drawCols (xs ys b : Byte) (row : Nat) (hr : row < 15) (n : Nat) : ∀ (col : Nat) (d : Drawing), col + n ≤ 8 →
    Draws (ColsHit xs ys b row n col) d (drawCols xs ys b row n col d) := by
  induction n with
  | zero =>
    intro col d _
    have hno : ∀ k, ¬ ColsHit xs ys b row 0 col k := fun k ⟨c, h1, h2, _⟩ => by omega
    exact ⟨fun k _ => by simp [hno, drawCols], by simp [hno, drawCols]⟩
  | succ n ih =>
    intro col d hcol
    refine ((draws_drawBit d (b.getLsbD (7 - col)) (pixelIndex_lt xs ys row col)).trans (ih (col + 1) _ (by omega))
      ?_ ?_).congr ?_
    · rintro k ⟨c, -, -, -, rfl⟩
      exact pixelIndex_lt xs ys row c
    · rintro k ⟨-, rfl⟩ ⟨c, h1, h2, -, h4⟩
      have := (pixelIndex_inj h4 (by omega) (by omega) hr hr).2
      omega
    · intro k
      constructor
      · rintro (⟨h1, h2⟩ | ⟨c, h1, h2, h3, h4⟩)
        · exact ⟨col, by omega, by omega, h1, h2⟩
        · exact ⟨c, by omega, by omega, h3, h4⟩
      · rintro ⟨c, h1, h2, h3, h4⟩
        by_cases hc : c = col
        · subst hc
          exact .inl ⟨h3, h4⟩
        · exact .inr ⟨c, by omega, by omega, h3, h4⟩

/-- The rows of a sprite (R171, R173 (b)). -/
theorem draws_drawRows (xs ys : Byte) (bs : List Byte) : ∀ (row : Nat) (d : Drawing), row + bs.length ≤ 15 →
    Draws (RowsHit xs ys bs row) d (drawRows xs ys bs row d) := by
  induction bs with
  | nil =>
    intro row d _
    have hno : ∀ k, ¬ RowsHit xs ys [] row k := fun k ⟨r, h, _⟩ => by simp at h
    exact ⟨fun k _ => by simp [hno, drawRows], by simp [hno, drawRows]⟩
  | cons b bs ih =>
    intro row d hrow
    simp only [List.length_cons] at hrow
    refine ((draws_drawCols xs ys b row (by omega) 8 0 d (by omega)).trans (ih (row + 1) _ (by omega)) ?_ ?_).congr ?_
    · rintro k ⟨r, hr, c, -, -, -, rfl⟩
      exact pixelIndex_lt ..
    · rintro k ⟨c, -, hc, -, h1⟩ ⟨r, hr, c', -, hc', -, h2⟩
      have := (pixelIndex_inj (h1.trans h2.symm) (by omega) (by omega) (by omega) (by omega)).1
      omega
    · intro k
      constructor
      · rintro (h | ⟨r, hr, h⟩)
        · exact ⟨0, by simp, h⟩
        · exact ⟨r + 1, by simpa using hr, by simpa [Nat.add_assoc, Nat.add_comm 1 r] using h⟩
      · rintro ⟨r, hr, h⟩
        cases r with
        | zero => exact .inl h
        | succ r =>
          exact .inr ⟨r, by simpa using hr, by simpa [Nat.add_assoc, Nat.add_comm 1 r] using h⟩

end Sys2Proof.Machine
end

