-- ==== Sys2Proof/Laws/Frame.lean ====
section
/-! SUPPORT. What each update of the state leaves unchanged, in the words of Safety.lean: frames are assembled from these. -/

namespace Sys2Proof.Machine

theorem onlyChanges_refl (parts : List Part) (s : State) : OnlyChanges parts s s :=
  ⟨fun p _ => by cases p <;> simp [Part.same], rfl, rfl, rfl⟩

theorem Part.same_trans {p : Part} {s t u : State} (h1 : p.same s t) (h2 : p.same t u) : p.same s u := by
  cases p <;> simp_all [Part.same]

theorem onlyChanges_trans {ps qs : List Part} {s t u : State} (h1 : OnlyChanges ps s t) (h2 : OnlyChanges qs t u) :
    OnlyChanges (ps ++ qs) s u := by
  refine ⟨fun p hp => ?_, ?_, ?_, ?_⟩
  · simp only [List.mem_append, not_or] at hp
    exact Part.same_trans (h1.1 p hp.1) (h2.1 p hp.2)
  · rw [h2.2.1, h1.2.1]
  · rw [h2.2.2.1, h1.2.2.1]
  · rw [h2.2.2.2, h1.2.2.2]

/-- The list may name a part that did not change, in any order and any number of times. -/
theorem onlyChanges_mono {ps qs : List Part} {s t : State} (h : OnlyChanges ps s t) (hpq : ∀ p ∈ ps, p ∈ qs) :
    OnlyChanges qs s t :=
  ⟨fun p hp => h.1 p (fun hm => hp (hpq p hm)), h.2⟩

theorem onlyChanges_setPc (s : State) (w : Word) : OnlyChanges [.pc] s (s.setPc w) :=
  ⟨fun p hp => by cases p <;> simp_all [Part.same], rfl, rfl, rfl⟩

theorem onlyChanges_skipIf (s : State) (c : Bool) : OnlyChanges [.pc] s (s.skipIf c) := by
  rw [State.skipIf_eq_setPc]
  exact onlyChanges_setPc s _

theorem onlyChanges_setI (s : State) (w : Word) : OnlyChanges [.i] s (s.setI w) :=
  ⟨fun p hp => by cases p <;> simp_all [Part.same], rfl, rfl, rfl⟩

theorem onlyChanges_setDt (s : State) (b : Byte) : OnlyChanges [.dt] s (s.setDt b) :=
  ⟨fun p hp => by cases p <;> simp_all [Part.same], rfl, rfl, rfl⟩

theorem onlyChanges_setSt (s : State) (b : Byte) : OnlyChanges [.st] s (s.setSt b) :=
  ⟨fun p hp => by cases p <;> simp_all [Part.same], rfl, rfl, rfl⟩

theorem onlyChanges_setMem (s : State) (m : Memory) : OnlyChanges [.mem] s (s.setMem m) :=
  ⟨fun p hp => by cases p <;> simp_all [Part.same], rfl, rfl, rfl⟩

theorem onlyChanges_setFb (s : State) (f : Framebuffer) : OnlyChanges [.fb] s (s.setFb f) :=
  ⟨fun p hp => by cases p <;> simp_all [Part.same], rfl, rfl, rfl⟩

theorem onlyChanges_setStack (s : State) (p : Fin 17) (k : Vector Word 16) : OnlyChanges [.stack] s (s.setStack p k) :=
  ⟨fun q hq => by cases q <;> simp_all [Part.same], rfl, rfl, rfl⟩

theorem onlyChanges_setDraws (s : State) (n : Nat) : OnlyChanges [.draws] s (s.setDraws n) :=
  ⟨fun p hp => by cases p <;> simp_all [Part.same], rfl, rfl, rfl⟩

theorem onlyChanges_setReg (s : State) (x : Reg) (b : Byte) : OnlyChanges [.regs] s (s.setReg x b) :=
  ⟨fun p hp => by cases p <;> simp_all [Part.same], rfl, rfl, rfl⟩

theorem regsSameBut_setReg (s : State) (x : Reg) (b : Byte) : RegsSameBut [x] s (s.setReg x b) := fun r hr =>
  State.reg_setReg_other s (fun e => hr (by simp [e])) b

/-- The two writes of a flag-writing instruction, in either order. -/
theorem onlyChanges_setReg_setReg (s : State) (x y : Reg) (a b : Byte) :
    OnlyChanges [.regs] s ((s.setReg x a).setReg y b) :=
  onlyChanges_mono (onlyChanges_trans (onlyChanges_setReg s x a) (onlyChanges_setReg _ y b)) (by simp)

theorem regsSameBut_setReg_setReg (s : State) (x y : Reg) (a b : Byte) :
    RegsSameBut [x, y] s ((s.setReg x a).setReg y b) := by
  intro r hr
  simp only [List.mem_cons, List.not_mem_nil, or_false, not_or] at hr
  rw [State.reg_setReg_other _ (Ne.symm hr.2), State.reg_setReg_other _ (Ne.symm hr.1)]

end Sys2Proof.Machine
end

