-- ==== Sys2Proof/Laws/IndexMemory.lean ====
section
/-! SUPPORT. What the loops of LD [I],Vx and LD Vx,[I] do (spec/42_index_and_memory.md R164, R165): where every byte is in range, and
where a byte is not. -/

namespace Sys2Proof.Machine

/-- V[k], V[k+1], ..., n of them. -/
def regBytes (s : State) : Nat → Nat → List Byte
  | 0, _ => []
  | n + 1, k => s.reg (BitVec.ofNat 4 k) :: regBytes s n (k + 1)

@[simp] theorem length_regBytes (s : State) (n k : Nat) : (regBytes s n k).length = n := by
  induction n generalizing k with
  | zero => rfl
  | succ n ih => simp [regBytes, ih]

theorem getElem_regBytes (s : State) (n : Nat) : ∀ (k j : Nat) (h : j < (regBytes s n k).length),
    (regBytes s n k)[j] = s.reg (BitVec.ofNat 4 (k + j)) := by
  induction n with
  | zero => intro k j h; simp at h
  | succ n ih =>
    intro k j h
    cases j with
    | zero => rfl
    | succ j => simp only [regBytes, List.getElem_cons_succ, ih, Nat.add_assoc, Nat.add_comm 1 j]

theorem regBytes_setMem (s : State) (m : Memory) (n : Nat) : ∀ k : Nat, regBytes (s.setMem m) n k = regBytes s n k := by
  induction n with
  | zero => intro k; rfl
  | succ n ih => intro k; simp [regBytes, ih]

/-- The store loop runs m bytes into the program region, and then goes on from there. -/
theorem storeRegs_prefix (m : Nat) : ∀ (n k : Nat) (s : State),
    (∀ j : Nat, j < m → progBase ≤ s.i.toNat + (k + j) ∧ s.i.toNat + (k + j) < progEnd) →
    storeRegs (m + n) k s =
      storeRegs n (k + m) (s.setMem (Memory.writeBytes s.mem (s.i.toNat + k) (regBytes s m k))) := by
  induction m with
  | zero => intro n k s _; rw [Nat.zero_add]; rfl
  | succ m ih =>
    intro n k s h
    have h0 := h 0 (by omega)
    simp only [Nat.add_zero] at h0
    rw [show m + 1 + n = (m + n) + 1 by omega, storeRegs, effAddr, memWrite_inside _ _ h0.1 h0.2, andThen_next,
      ih n (k + 1) _ (fun j hj => by have := h (j + 1) (by omega); simpa [Nat.add_assoc, Nat.add_comm 1 j] using this),
      regBytes_setMem, show k + 1 + m = k + (m + 1) by omega]
    rfl

/-- Every byte in range: the registers are written in order and the loop completes. -/
theorem storeRegs_inside (n k : Nat) (s : State)
    (h : ∀ j : Nat, j < n → progBase ≤ s.i.toNat + (k + j) ∧ s.i.toNat + (k + j) < progEnd) :
    storeRegs n k s = .next (s.setMem (Memory.writeBytes s.mem (s.i.toNat + k) (regBytes s n k))) := by
  have := storeRegs_prefix n 0 k s h
  simpa [storeRegs] using this

/-- The byte m is the first out of range: the m before it stay written (R208). -/
theorem storeRegs_outside (m n k : Nat) (s : State)
    (h : ∀ j : Nat, j < m → progBase ≤ s.i.toNat + (k + j) ∧ s.i.toNat + (k + j) < progEnd)
    (hbad : ¬ (progBase ≤ s.i.toNat + (k + m) ∧ s.i.toNat + (k + m) < progEnd)) :
    storeRegs (m + (n + 1)) k s =
      .fault (.outOfBounds (s.setMem (Memory.writeBytes s.mem (s.i.toNat + k) (regBytes s m k)))) := by
  rw [storeRegs_prefix m (n + 1) k s h, storeRegs, effAddr, State.setMem_i, memWrite_outside _ _ hbad, andThen_fault]

/-- The digits of LD B,Vx in the order they are stored (R163). -/
def digits (b : Byte) : List Byte := [hundreds b, tens b, units b]

/-- LD B,Vx with its three bytes in the program region (R163). -/
theorem execLdB_inside (x : Reg) (s : State) (h : ∀ j : Nat, j < 3 → progBase ≤ s.i.toNat + j ∧ s.i.toNat + j < progEnd) :
    execLdB x s = .next (s.setMem (Memory.writeBytes s.mem s.i.toNat (digits (s.reg x)))) := by
  have h0 := h 0 (by omega)
  have h1 := h 1 (by omega)
  have h2 := h 2 (by omega)
  rw [execLdB]
  simp only [effAddr]
  rw [memWrite_inside _ _ h0.1 h0.2, andThen_next, memWrite_inside _ _ h1.1 h1.2, andThen_next,
    memWrite_inside _ _ h2.1 h2.2]
  rfl

/-- LD B,Vx whose byte m is the first out of range: the m digits before it stay written (R163, R208). -/
theorem execLdB_outside (x : Reg) (s : State) (m : Nat) (hm : m < 3)
    (h : ∀ j : Nat, j < m → progBase ≤ s.i.toNat + j ∧ s.i.toNat + j < progEnd)
    (hbad : ¬ (progBase ≤ s.i.toNat + m ∧ s.i.toNat + m < progEnd)) :
    execLdB x s =
      .fault (.outOfBounds (s.setMem (Memory.writeBytes s.mem s.i.toNat ((digits (s.reg x)).take m)))) := by
  rw [execLdB]
  simp only [effAddr]
  match m, hm with
  | 0, _ =>
    rw [memWrite_outside _ _ hbad]
    rfl
  | 1, _ =>
    have h0 := h 0 (by omega)
    rw [memWrite_inside _ _ h0.1 h0.2, andThen_next, memWrite_outside _ _ hbad]
    rfl
  | 2, _ =>
    have h0 := h 0 (by omega)
    have h1 := h 1 (by omega)
    rw [memWrite_inside _ _ h0.1 h0.2, andThen_next, memWrite_inside _ _ h1.1 h1.2, andThen_next, memWrite_outside _ _ hbad]
    rfl

/-- The state with its register file replaced. -/
def setRegs (s : State) (v : Vector Byte 16) : State := { s with v := v }

/-- What the load loop leaves after m bytes: registers k to k + m - 1 loaded, everything else as it was. -/
def Loaded (s : State) (k m : Nat) (t : State) : Prop :=
  t = setRegs s t.v ∧ ∀ r : Reg, t.reg r =
    if k ≤ r.toNat ∧ r.toNat < k + m then Memory.read s.mem (s.i.toNat + r.toNat) else s.reg r

/-- The load loop runs m bytes within memory, and then goes on from there. -/
theorem loadRegs_prefix (m : Nat) : ∀ (n k : Nat) (s : State), k + m ≤ 16 →
    (∀ j : Nat, j < m → s.i.toNat + (k + j) < 4096) →
    ∃ t : State, Loaded s k m t ∧ loadRegs (m + n) k s = loadRegs n (k + m) t := by
  induction m with
  | zero =>
    intro n k s _ _
    refine ⟨s, ⟨rfl, fun r => ?_⟩, by rw [Nat.zero_add]; rfl⟩
    rw [if_neg (by omega)]
  | succ m ih =>
    intro n k s hk h
    have h0 := h 0 (by omega)
    simp only [Nat.add_zero] at h0
    obtain ⟨t, ⟨ht1, ht2⟩, ht3⟩ := ih n (k + 1) (s.setReg (BitVec.ofNat 4 k) (Memory.read s.mem (s.i.toNat + k)))
      (by omega) (fun j hj => by
        have := h (j + 1) (by omega)
        simpa [Nat.add_assoc, Nat.add_comm 1 j] using this)
    refine ⟨t, ⟨by rw [ht1]; rfl, fun r => ?_⟩, ?_⟩
    · rw [ht2]
      have hr := r.isLt
      have hkr : BitVec.ofNat 4 k = r ↔ k = r.toNat := by
        rw [← BitVec.toNat_inj, BitVec.toNat_ofNat, Nat.mod_eq_of_lt (by omega)]
      by_cases h1 : k + 1 ≤ r.toNat ∧ r.toNat < k + 1 + m
      · rw [if_pos h1, if_pos (by omega)]
        rfl
      · rw [if_neg h1, State.reg_setReg]
        by_cases h2 : k = r.toNat
        · rw [if_pos (hkr.mpr h2), if_pos (by omega), h2]
        · rw [if_neg (fun e => h2 (hkr.mp e)), if_neg (by omega)]
    · rw [show m + 1 + n = (m + n) + 1 by omega, loadRegs, effAddr, memRead_inside s h0, show k + (m + 1) = k + 1 + m by omega]
      exact ht3

/-- Every byte in memory: the loop completes with registers k to k + n - 1 loaded. -/
theorem loadRegs_inside (n k : Nat) (s : State) (hk : k + n ≤ 16) (h : ∀ j : Nat, j < n → s.i.toNat + (k + j) < 4096) :
    ∃ t : State, Loaded s k n t ∧ loadRegs n k s = .next t := by
  obtain ⟨t, h1, h2⟩ := loadRegs_prefix n 0 k s hk h
  exact ⟨t, h1, h2⟩

/-- The byte m is the first beyond memory: the m registers before it stay loaded (R208). -/
theorem loadRegs_outside (m n k : Nat) (s : State) (hk : k + m ≤ 16) (h : ∀ j : Nat, j < m → s.i.toNat + (k + j) < 4096)
    (hbad : 4096 ≤ s.i.toNat + (k + m)) :
    ∃ t : State, Loaded s k m t ∧ loadRegs (m + (n + 1)) k s = .fault (.outOfBounds t) := by
  obtain ⟨t, h1, h2⟩ := loadRegs_prefix m (n + 1) k s hk h
  refine ⟨t, h1, ?_⟩
  have hi : t.i = s.i := by rw [h1.1]; rfl
  rw [h2, loadRegs, effAddr, hi, memRead_outside _ hbad]
  rfl

/-! ### What the loops keep, whether they complete or stop -/

/-- A property every completed write keeps is kept by the three writes of LD B,Vx. -/
theorem leaves_execLdB {P : State → Prop} (hP : ∀ s a b t, P s → memWrite a b s = .next t → P t) (x : Reg) {s : State} (h : P s) :
    Leaves P (execLdB x s) :=
  leaves_andThen_same (leaves_memWrite h (fun t => hP _ _ _ t h)) fun _ h1 =>
  leaves_andThen_same (leaves_memWrite h1 (fun t => hP _ _ _ t h1)) fun _ h2 =>
  leaves_memWrite h2 (fun t => hP _ _ _ t h2)

/-- A property every completed write keeps is kept by the register dump. -/
theorem leaves_storeRegs {P : State → Prop} (hP : ∀ s a b t, P s → memWrite a b s = .next t → P t) (n : Nat) :
    ∀ (k : Nat) {s : State}, P s → Leaves P (storeRegs n k s) := by
  induction n with
  | zero => intro k s h; exact h
  | succ n ih =>
    intro k s h
    exact leaves_andThen_same (leaves_memWrite h (fun t => hP _ _ _ t h)) fun _ h1 => ih (k + 1) h1

/-- A property every register write keeps is kept by the register load. -/
theorem leaves_loadRegs {P : State → Prop} (hP : ∀ s x b, P s → P (s.setReg x b)) (n : Nat) :
    ∀ (k : Nat) {s : State}, P s → Leaves P (loadRegs n k s) := by
  induction n with
  | zero => intro k s h; exact h
  | succ n ih =>
    intro k s h
    rw [loadRegs]
    split
    · simpa using h
    · exact ih _ (hP _ _ _ h)

end Sys2Proof.Machine
end

