-- ==== Sys2Proof/Laws/PerInstr.lean ====
section
/-! SUPPORT. The family RowMatch: the word the encoder gives a well-formed instruction matches that instruction's row of the opcode
map, w & mask = match (spec/30_encoding.md R94, R96). -/

namespace Sys2Proof.Laws.RowMatch

/-- The instruction's word matches the row of the opcode map that bears its number. -/
def Statement (i : Instr) : Prop :=
  i.wellFormed = true → ∃ r ∈ opcodeMap, r.number = i.rowNumber ∧ r.matches (encode i) = true

theorem and_nibble (a : Nibble) : a &&& 0xF#4 = a := BitVec.and_allOnes
theorem and_byte (a : Byte) : a &&& 0xFF#8 = a := BitVec.and_allOnes
theorem and_zero_nibble (a : Nibble) : a &&& 0x0#4 = 0x0#4 := BitVec.and_zero

/-- The mask 0xF000 keeps the opcode nibble of a word of format NNN. -/
theorem mask_formNNN (op : Nibble) (nnn : Addr12) : formNNN op nnn &&& 0xF000#16 = op ++ 0#12 := by
  rw [formNNN, show 0xF000#16 = 0xF#4 ++ 0#12 by decide, BitVec.and_append, and_nibble, BitVec.and_zero]

/-- The mask 0xF000 keeps the opcode nibble of a word of format XKK. -/
theorem mask_formXKK (op : Nibble) (x : Reg) (kk : Byte) : formXKK op x kk &&& 0xF000#16 = op ++ 0#4 ++ 0#8 := by
  rw [formXKK, show 0xF000#16 = 0xF#4 ++ 0#4 ++ 0#8 by decide, BitVec.and_append, BitVec.and_append, and_nibble,
    BitVec.and_zero, BitVec.and_zero]

/-- The mask 0xF0FF keeps the opcode nibble and the low byte. -/
theorem mask_formX (op : Nibble) (x : Reg) (kk : Byte) : formXKK op x kk &&& 0xF0FF#16 = op ++ 0#4 ++ kk := by
  rw [formXKK, show 0xF0FF#16 = 0xF#4 ++ 0#4 ++ 0xFF#8 by decide, BitVec.and_append, BitVec.and_append, and_nibble,
    BitVec.and_zero, and_byte]

/-- The mask 0xF00F keeps the opcode nibble and the low nibble. -/
theorem mask_formXY (op : Nibble) (x y : Reg) (n : Nibble) : formXYN op x y n &&& 0xF00F#16 = op ++ 0#4 ++ 0#4 ++ n := by
  rw [formXYN, show 0xF00F#16 = 0xF#4 ++ 0#4 ++ 0#4 ++ 0xF#4 by decide, BitVec.and_append, BitVec.and_append,
    BitVec.and_append, and_nibble, and_nibble, and_zero_nibble, and_zero_nibble]

/-- The mask 0xF000 keeps the opcode nibble of a word of format XYN. -/
theorem mask_formXYN (op : Nibble) (x y : Reg) (n : Nibble) : formXYN op x y n &&& 0xF000#16 = op ++ 0#4 ++ 0#4 ++ 0#4 := by
  rw [formXYN, show 0xF000#16 = 0xF#4 ++ 0#4 ++ 0#4 ++ 0#4 by decide, BitVec.and_append, BitVec.and_append,
    BitVec.and_append, and_nibble, and_zero_nibble, and_zero_nibble, and_zero_nibble]

/-- A row of the map that the word meets. -/
theorem of_row {i : Instr} (r : OpcodeRow) (hr : r ∈ opcodeMap) (hn : r.number = i.rowNumber)
    (h : encode i &&& r.mask = r.pattern) : Statement i :=
  fun _ => ⟨r, hr, hn, by simp [OpcodeRow.matches, h]⟩

theorem cls : Statement (.cls) :=
  of_row ⟨2, 0xFFFF, 0x00E0⟩ (by decide) rfl (by decide)

theorem ret : Statement (.ret) :=
  of_row ⟨3, 0xFFFF, 0x00EE⟩ (by decide) rfl (by decide)

theorem sys (nnn : Addr12) : Statement (.sys nnn) :=
  of_row ⟨1, 0xF000, 0x0000⟩ (by decide) rfl ((mask_formNNN ..).trans (by decide))

theorem jp (nnn : Addr12) : Statement (.jp nnn) :=
  of_row ⟨4, 0xF000, 0x1000⟩ (by decide) rfl ((mask_formNNN ..).trans (by decide))

theorem call (nnn : Addr12) : Statement (.call nnn) :=
  of_row ⟨5, 0xF000, 0x2000⟩ (by decide) rfl ((mask_formNNN ..).trans (by decide))

theorem seByte (x : Reg) (kk : Byte) : Statement (.seByte x kk) :=
  of_row ⟨6, 0xF000, 0x3000⟩ (by decide) rfl ((mask_formXKK ..).trans (by decide))

theorem sneByte (x : Reg) (kk : Byte) : Statement (.sneByte x kk) :=
  of_row ⟨7, 0xF000, 0x4000⟩ (by decide) rfl ((mask_formXKK ..).trans (by decide))

theorem seReg (x y : Reg) : Statement (.seReg x y) :=
  of_row ⟨8, 0xF00F, 0x5000⟩ (by decide) rfl ((mask_formXY ..).trans (by decide))

theorem ldByte (x : Reg) (kk : Byte) : Statement (.ldByte x kk) :=
  of_row ⟨9, 0xF000, 0x6000⟩ (by decide) rfl ((mask_formXKK ..).trans (by decide))

theorem addByte (x : Reg) (kk : Byte) : Statement (.addByte x kk) :=
  of_row ⟨10, 0xF000, 0x7000⟩ (by decide) rfl ((mask_formXKK ..).trans (by decide))

theorem ldReg (x y : Reg) : Statement (.ldReg x y) :=
  of_row ⟨11, 0xF00F, 0x8000⟩ (by decide) rfl ((mask_formXY ..).trans (by decide))

theorem orReg (x y : Reg) : Statement (.orReg x y) :=
  of_row ⟨12, 0xF00F, 0x8001⟩ (by decide) rfl ((mask_formXY ..).trans (by decide))

theorem andReg (x y : Reg) : Statement (.andReg x y) :=
  of_row ⟨13, 0xF00F, 0x8002⟩ (by decide) rfl ((mask_formXY ..).trans (by decide))

theorem xorReg (x y : Reg) : Statement (.xorReg x y) :=
  of_row ⟨14, 0xF00F, 0x8003⟩ (by decide) rfl ((mask_formXY ..).trans (by decide))

theorem addReg (x y : Reg) : Statement (.addReg x y) :=
  of_row ⟨15, 0xF00F, 0x8004⟩ (by decide) rfl ((mask_formXY ..).trans (by decide))

theorem subReg (x y : Reg) : Statement (.subReg x y) :=
  of_row ⟨16, 0xF00F, 0x8005⟩ (by decide) rfl ((mask_formXY ..).trans (by decide))

theorem shr (x y : Reg) : Statement (.shr x y) :=
  of_row ⟨17, 0xF00F, 0x8006⟩ (by decide) rfl ((mask_formXY ..).trans (by decide))

theorem subnReg (x y : Reg) : Statement (.subnReg x y) :=
  of_row ⟨18, 0xF00F, 0x8007⟩ (by decide) rfl ((mask_formXY ..).trans (by decide))

theorem shl (x y : Reg) : Statement (.shl x y) :=
  of_row ⟨19, 0xF00F, 0x800E⟩ (by decide) rfl ((mask_formXY ..).trans (by decide))

theorem sneReg (x y : Reg) : Statement (.sneReg x y) :=
  of_row ⟨20, 0xF00F, 0x9000⟩ (by decide) rfl ((mask_formXY ..).trans (by decide))

theorem ldI (nnn : Addr12) : Statement (.ldI nnn) :=
  of_row ⟨21, 0xF000, 0xA000⟩ (by decide) rfl ((mask_formNNN ..).trans (by decide))

theorem jpV0 (nnn : Addr12) : Statement (.jpV0 nnn) :=
  of_row ⟨22, 0xF000, 0xB000⟩ (by decide) rfl ((mask_formNNN ..).trans (by decide))

theorem rnd (x : Reg) (kk : Byte) : Statement (.rnd x kk) :=
  of_row ⟨23, 0xF000, 0xC000⟩ (by decide) rfl ((mask_formXKK ..).trans (by decide))

theorem drw (x y : Reg) (n : Nibble) : Statement (.drw x y n) :=
  of_row ⟨24, 0xF000, 0xD000⟩ (by decide) rfl ((mask_formXYN ..).trans (by decide))

theorem skp (x : Reg) : Statement (.skp x) :=
  of_row ⟨25, 0xF0FF, 0xE09E⟩ (by decide) rfl ((mask_formX ..).trans (by decide))

theorem sknp (x : Reg) : Statement (.sknp x) :=
  of_row ⟨26, 0xF0FF, 0xE0A1⟩ (by decide) rfl ((mask_formX ..).trans (by decide))

theorem ldVxDt (x : Reg) : Statement (.ldVxDt x) :=
  of_row ⟨27, 0xF0FF, 0xF007⟩ (by decide) rfl ((mask_formX ..).trans (by decide))

theorem ldVxK (x : Reg) : Statement (.ldVxK x) :=
  of_row ⟨28, 0xF0FF, 0xF00A⟩ (by decide) rfl ((mask_formX ..).trans (by decide))

theorem ldDtVx (x : Reg) : Statement (.ldDtVx x) :=
  of_row ⟨29, 0xF0FF, 0xF015⟩ (by decide) rfl ((mask_formX ..).trans (by decide))

theorem ldStVx (x : Reg) : Statement (.ldStVx x) :=
  of_row ⟨30, 0xF0FF, 0xF018⟩ (by decide) rfl ((mask_formX ..).trans (by decide))

theorem addI (x : Reg) : Statement (.addI x) :=
  of_row ⟨31, 0xF0FF, 0xF01E⟩ (by decide) rfl ((mask_formX ..).trans (by decide))

theorem ldF (x : Reg) : Statement (.ldF x) :=
  of_row ⟨32, 0xF0FF, 0xF029⟩ (by decide) rfl ((mask_formX ..).trans (by decide))

theorem ldB (x : Reg) : Statement (.ldB x) :=
  of_row ⟨33, 0xF0FF, 0xF033⟩ (by decide) rfl ((mask_formX ..).trans (by decide))

theorem ldMemVx (x : Reg) : Statement (.ldMemVx x) :=
  of_row ⟨34, 0xF0FF, 0xF055⟩ (by decide) rfl ((mask_formX ..).trans (by decide))

theorem ldVxMem (x : Reg) : Statement (.ldVxMem x) :=
  of_row ⟨35, 0xF0FF, 0xF065⟩ (by decide) rfl ((mask_formX ..).trans (by decide))

end Sys2Proof.Laws.RowMatch
end

