-- ==== Sys2Proof/Laws/Step.lean ====
section
/-! SUPPORT. What a call, a return, a dispatch and a step can do: one lemma each, cited in place of unfolding them. -/

namespace Sys2Proof.Machine

/-- CALL pushes and jumps below depth 16, and is the StackOverflow error at depth 16 (R28, R124). -/
theorem execCall_cases (nnn : Addr12) (s : State) :
    (∃ h : s.sp.val < 16, execCall nnn s =
      .next ((s.setStack ⟨s.sp.val + 1, by omega⟩ (s.stack.set s.sp.val s.pc h)).setPc (zextAddr nnn))) ∨
    (s.sp.val = 16 ∧ execCall nnn s = .fault (.stackOverflow s)) := by
  by_cases h : s.sp.val < 16
  · exact .inl ⟨h, by rw [execCall, push_below h]; rfl⟩
  · have h16 : s.sp.val = 16 := by omega
    exact .inr ⟨h16, by rw [execCall, push_full h16]; rfl⟩

/-- RET pops above depth 0, and is the EmptyStack error at depth 0 (R28, R122). -/
theorem execRet_cases (s : State) :
    (∃ h : 0 < s.sp.val, execRet s =
      .next ((s.setStack ⟨s.sp.val - 1, by omega⟩ s.stack).setPc (s.stack[s.sp.val - 1]'(by omega)))) ∨
    (s.sp.val = 0 ∧ execRet s = .fault (.emptyStack s)) := by
  by_cases h : 0 < s.sp.val
  · exact .inl ⟨h, popToPc_nonempty h⟩
  · exact .inr ⟨by omega, popToPc_empty (by omega)⟩

/-- Before boot the Host's cycle is refused (R244, log 4). -/
theorem hostCycle_fresh {s : State} (h : s.phase = .fresh) : hostCycle s = .refused .cycleBeforeBoot := by rw [hostCycle, if_pos h]

/-- After boot the Host's cycle is the Engine's (R244, log 4). -/
theorem hostCycle_booted {s : State} (h : s.phase ≠ .fresh) : hostCycle s = cycle s := by rw [hostCycle, if_neg h]

/-- The Host's cycle completes exactly when the machine is booted and the Engine's cycle completes. -/
theorem hostCycle_eq_next {s t : State} : hostCycle s = .next t ↔ s.phase ≠ .fresh ∧ cycle s = .next t := by
  unfold hostCycle
  split <;> simp_all

/-- A step with nothing planned by the Host is a cycle (log 2). -/
theorem step_of_nil {s : State} (h : s.host = []) : step s = hostCycle s := by rw [step, nextTransaction, h]

/-- A step with a transaction planned is that transaction, taken off the list (log 2). -/
theorem step_of_cons {s : State} {h : HostStep} {rest : List HostStep} (hs : s.host = h :: rest) :
    step s = hostTransaction h (s.setHost rest) := by rw [step, nextTransaction, hs]

@[simp] theorem emitTrace_eq_next {i : Instr} {r : Result} {t : State} :
    emitTrace i r = .next t ↔ ∃ u, r = .next u ∧ u.setTrace (some i) = t := by
  rw [emitTrace, andThen_eq_next]
  simp

/-- A fetched word that decodes is decoded alike from the two bytes at the pc, which lie where a fetch succeeds (R65, R69). -/
theorem decodeBytes_of_fetchWord {s : State} {w : Word} {i : Instr} (hf : fetchWord s = some w) (hd : decodeWord w = .ok i) :
    (progBase ≤ s.pc.toNat ∧ s.pc.toNat + 2 ≤ progEnd) ∧
      decodeBytes (Memory.readBytes s.mem s.pc.toNat 2) = .ok (i, []) := by
  rw [fetchWord_eq] at hf
  split at hf
  · next hr =>
    refine ⟨hr, ?_⟩
    show decodeBytes [Memory.read s.mem s.pc.toNat, Memory.read s.mem (s.pc.toNat + 1)] = _
    rw [decodeBytes, Option.some.inj hf, hd]
  · cases hf

/-- A cycle that completes fetched a word, decoded it and ran the instruction; nothing else makes it complete (R120). -/
theorem cycle_eq_next {s t : State} : cycle s = .next t ↔
    ∃ w i u, fetchWord s = some w ∧ decodeWord w = .ok i ∧ exec i (afterFetch s) = .next u ∧ t = u.setTrace (some i) := by
  rw [cycle]
  cases hf : fetchWord s with
  | none => simp
  | some w =>
    simp only [dispatchWord]
    cases hd : decodeWord w with
    | error e => simp [hd]
    | ok i => simp [hd, eq_comm (b := t)]

end Sys2Proof.Machine
end

