-- ==== Sys2Proof/Tests/Slice0.lean ====
section
/-! SUPPORT. Tests. Expected results come from spec/95_test_vectors.md (the T and S numbers in the comments) and from the words
spec/30_encoding.md R96 writes out; each runs one step. -/

namespace Sys2Proof.Tests

open Sys2Proof.Machine

/-! ### WellFormed refuses each ill-formed term -/

theorem test_wellFormed_refuses_sys_of_cls : Instr.wellFormed (.sys 0x0E0) = false := by decide
theorem test_wellFormed_refuses_sys_of_ret : Instr.wellFormed (.sys 0x0EE) = false := by decide
theorem test_wellFormed_accepts_sys : Instr.wellFormed (.sys 0x0E1) = true := by decide

/-! ### Decoding, every constructor by a word of R96's pattern -/

/-- T605, T606, T607 to T609. -/
theorem test_decode_family_0 :
    decodeWord 0b0000000011100000 = .ok .cls ∧ decodeWord 0b0000000011101110 = .ok .ret ∧
    decodeWord 0x00E1 = .ok (.sys 0x0E1) ∧ decodeWord 0x0000 = .ok (.sys 0) ∧ decodeWord 0x0EE0 = .ok (.sys 0xEE0) := by
  decide

/-- T601, T603, T617 and 3xkk, T634, T610, T615. -/
theorem test_decode_control :
    decodeWord 0x1234 = .ok (.jp 0x234) ∧ decodeWord 0x2A1E = .ok (.call 0xA1E) ∧ decodeWord 0xBFFF = .ok (.jpV0 0xFFF) ∧
    decodeWord 0x35FC = .ok (.seByte 5 0xFC) ∧ decodeWord 0x4210 = .ok (.sneByte 2 0x10) ∧
    decodeWord 0x5AB0 = .ok (.seReg 0xA 0xB) ∧ decodeWord 0x9AB0 = .ok (.sneReg 0xA 0xB) := by
  decide

/-- T602, T633, T618, T612, T613 and the rest of family 8. -/
theorem test_decode_register_alu :
    decodeWord 0x63CF = .ok (.ldByte 3 0xCF) ∧ decodeWord 0x7FFF = .ok (.addByte 0xF 0xFF) ∧
    decodeWord 0xC30F = .ok (.rnd 3 0x0F) ∧ decodeWord 0x8AB0 = .ok (.ldReg 0xA 0xB) ∧
    decodeWord 0x8AB1 = .ok (.orReg 0xA 0xB) ∧ decodeWord 0x8AB2 = .ok (.andReg 0xA 0xB) ∧
    decodeWord 0x8AB3 = .ok (.xorReg 0xA 0xB) ∧ decodeWord 0x8AB4 = .ok (.addReg 0xA 0xB) ∧
    decodeWord 0x8AB5 = .ok (.subReg 0xA 0xB) ∧ decodeWord 0x8AB6 = .ok (.shr 0xA 0xB) ∧
    decodeWord 0x8AB7 = .ok (.subnReg 0xA 0xB) ∧ decodeWord 0x8ABE = .ok (.shl 0xA 0xB) := by
  decide

/-- T604, T616, T619, T620. -/
theorem test_decode_display_index_keys :
    decodeWord 0b1101110000000011 = .ok (.drw 0xC 0 3) ∧ decodeWord 0xA2F0 = .ok (.ldI 0x2F0) ∧
    decodeWord 0xE19E = .ok (.skp 1) ∧ decodeWord 0xE1A1 = .ok (.sknp 1) := by
  decide

/-- T622 to T630, with x = 3. -/
theorem test_decode_family_F :
    decodeWord 0xF307 = .ok (.ldVxDt 3) ∧ decodeWord 0xF30A = .ok (.ldVxK 3) ∧ decodeWord 0xF315 = .ok (.ldDtVx 3) ∧
    decodeWord 0xF318 = .ok (.ldStVx 3) ∧ decodeWord 0xF31E = .ok (.addI 3) ∧ decodeWord 0xF329 = .ok (.ldF 3) ∧
    decodeWord 0xF333 = .ok (.ldB 3) ∧ decodeWord 0xF355 = .ok (.ldMemVx 3) ∧ decodeWord 0xF365 = .ok (.ldVxMem 3) := by
  decide

/-- T611, T614, T621, T631, T632: no handler. -/
theorem test_decode_refuses_undefined :
    decodeWord 0x5AB1 = .error (.noHandler 0x5AB1) ∧ decodeWord 0x8AB8 = .error (.noHandler 0x8AB8) ∧
    decodeWord 0x912F = .error (.noHandler 0x912F) ∧ decodeWord 0xE19F = .error (.noHandler 0xE19F) ∧
    decodeWord 0xF075 = .error (.noHandler 0xF075) ∧ decodeWord 0xFFFF = .error (.noHandler 0xFFFF) := by
  decide

/-- R69: the byte at the lower address is the high byte. -/
theorem test_decode_bytes_big_endian : decodeBytes [0x12, 0x34, 0x56] = .ok (.jp 0x234, [0x56]) := by decide
theorem test_decode_bytes_truncated : decodeBytes [0x12] = .error .truncated := by decide
theorem test_decodeTableWord : decodeTableWord 16 0xDC03 = some (.drw 0xC 0 3) := by decide

/-- S11, R103: "LD V{0x3}, 0xCF" and "CALL 0x0A1E". -/
theorem test_trace_descriptor : (Instr.ldByte 3 0xCF).descriptor = ⟨"LD", [.reg 3, .byte 0xCF]⟩ ∧
    (Instr.call 0xA1E).descriptor = ⟨"CALL", [.addr 0xA1E]⟩ := by decide

/-! ### One step -/

/-- What f sees of the next state. -/
def ok {α : Type} (r : Result) (f : State → α) : Option α :=
  match r with
  | .next t => some (f t)
  | _ => none

/-- The error kind returned, and what f sees of the state it leaves. -/
def err {α : Type} (r : Result) (f : State → α) : Option (ErrorKind × α) :=
  match r with
  | .fault q => some (q.kind, f q.after)
  | _ => none

/-- The reset state with registers set, oldest first. -/
def withRegs (rs : List (Reg × Byte)) : State := rs.foldl (fun s r => s.setReg r.1 r.2) State.reset

/-- After reset and the load of an empty image: cycles are allowed. -/
def booted : State := State.reset.setPhase .loaded

/-- The step of a state with the word at its pc. -/
def run1 (w : Nat) (s : State) : Result := step (s.withFetchWord 16 w)

/-- Bytes put in memory. -/
def poke (a : Nat) (bs : List Byte) (s : State) : State := s.setMem (Memory.writeBytes s.mem a bs)

/-- T701, T702. -/
theorem test_reset : State.reset.pc = 0x200 ∧ Memory.readBytes State.reset.mem 0x04F 7 = [0, 0xF0, 0x90, 0x90, 0x90, 0xF0, 0x20] ∧
    Memory.readBytes State.reset.mem 0x09B 6 = [0xF0, 0x80, 0xF0, 0x80, 0x80, 0] := by decide

/-- T401. -/
theorem test_cls : ok (run1 0x00E0 ((withRegs [(0xF, 1)]).setFb (Vector.replicate 32 0x8000001))) (fun t => (t.fb.toList.all (· == 0), t.reg 0xF)) = some (true, 1) := by decide
/-- T109. -/
theorem test_ret : ok (run1 0x00EE (((State.reset.setPc 0x300).setStack 1 (State.reset.stack.set 0 0x204))))
    (fun t => (t.pc, t.sp, t.stack[0])) = some (0x204, 0, 0x204) := by decide
/-- T110. -/
theorem test_ret_empty : err (run1 0x00EE State.reset) (fun t => (t.pc, t.sp)) = some (.emptyStack, 0x202, 0) := by decide
/-- T129. -/
theorem test_sys : err (run1 0x0123 State.reset) (fun t => t.pc) = some (.invalidOpcode, 0x202) := by decide
/-- T101. -/
theorem test_jp : ok (run1 0x1234 State.reset) (fun t => t.pc) = some 0x234 := by decide
/-- T108. -/
theorem test_call : ok (run1 0x2300 (State.reset.setStack 15 State.reset.stack)) (fun t => (t.pc, t.sp, t.stack[15])) =
    some (0x300, 16, 0x202) := by decide
/-- T107. -/
theorem test_call_overflow : err (run1 0x2200 (State.reset.setStack 16 State.reset.stack)) (fun t => (t.pc, t.sp)) =
    some (.stackOverflow, 0x202, 16) := by decide
/-- T112. -/
theorem test_seByte_skips : ok (run1 0x35FC (withRegs [(5, 0xFC)])) (fun t => t.pc) = some 0x204 := by decide
/-- T113. -/
theorem test_seByte_no_skip : ok (run1 0x31FA (withRegs [(1, 0xFC)])) (fun t => t.pc) = some 0x202 := by decide
/-- T115. -/
theorem test_sneByte_skips : ok (run1 0x4211 (withRegs [(2, 0x10)])) (fun t => t.pc) = some 0x204 := by decide
/-- T118. -/
theorem test_seReg_no_skip : ok (run1 0x5120 (withRegs [(1, 7), (2, 8)])) (fun t => t.pc) = some 0x202 := by decide
/-- T121. -/
theorem test_sneReg_skips : ok (run1 0x9120 (withRegs [(1, 7), (2, 8)])) (fun t => t.pc) = some 0x204 := by decide
/-- T126: the register added is V0. -/
theorem test_jpV0 : ok (run1 0xB300 (withRegs [(3, 0x10)])) (fun t => t.pc) = some 0x300 := by decide
/-- T127. -/
theorem test_jpV0_stored_whole : ok (run1 0xBFFF (withRegs [(0, 0xFF)])) (fun t => t.pc) = some 0x10FE := by decide
/-- T131: the advance off the end of memory. -/
theorem test_ldByte : ok (run1 0x6A01 (State.reset.setPc 0xFFE)) (fun t => (t.pc, t.reg 0xA)) = some (0x1000, 1) := by decide
/-- T203. -/
theorem test_addByte_wraps : ok (run1 0x7320 (withRegs [(3, 0xF0), (0xF, 1)])) (fun t => (t.reg 3, t.reg 0xF)) = some (0x10, 1) := by decide
/-- T207. -/
theorem test_ldReg : ok (run1 0x8120 (withRegs [(2, 0x7B)])) (fun t => t.reg 1) = some 0x7B := by decide
/-- T208. -/
theorem test_orReg : ok (run1 0x8121 (withRegs [(1, 0x0F), (2, 0xF0), (0xF, 1)])) (fun t => (t.reg 1, t.reg 0xF)) = some (0xFF, 1) := by decide
/-- T209. -/
theorem test_andReg : ok (run1 0x8122 (withRegs [(1, 0x3C), (2, 0x0F), (0xF, 1)])) (fun t => (t.reg 1, t.reg 0xF)) = some (0x0C, 1) := by decide
/-- T210. -/
theorem test_xorReg : ok (run1 0x8123 (withRegs [(1, 0xFF), (2, 0x0F), (0xF, 1)])) (fun t => (t.reg 1, t.reg 0xF)) = some (0xF0, 1) := by decide
/-- T212. -/
theorem test_addReg_carry : ok (run1 0x8124 (withRegs [(1, 0xFF), (2, 1)])) (fun t => (t.reg 1, t.reg 0xF)) = some (0, 1) := by decide
/-- T217: x = 0xF, the flag survives. -/
theorem test_addReg_into_vf : ok (run1 0x8F14 (withRegs [(0xF, 0xFF), (1, 1)])) (fun t => t.reg 0xF) = some 1 := by decide
/-- T222. -/
theorem test_subReg_borrow : ok (run1 0x8125 (withRegs [(1, 0), (2, 1), (0xF, 1)])) (fun t => (t.reg 1, t.reg 0xF)) = some (0xFF, 0) := by decide
/-- T225: x = 0xF, the difference survives. -/
theorem test_subReg_into_vf : ok (run1 0x8F15 (withRegs [(0xF, 5), (1, 3)])) (fun t => t.reg 0xF) = some 2 := by decide
/-- T230: V[y] is neither read nor written. -/
theorem test_shr : ok (run1 0x81A6 (withRegs [(1, 4), (0xA, 0xFF), (0xF, 1)])) (fun t => (t.reg 1, t.reg 0xF, t.reg 0xA)) =
    some (2, 0, 0xFF) := by decide
/-- T232. -/
theorem test_shr_vf : ok (run1 0x8F16 (withRegs [(0xF, 7)])) (fun t => t.reg 0xF) = some 3 := by decide
/-- T234. -/
theorem test_subnReg_borrow : ok (run1 0x8127 (withRegs [(1, 7), (2, 5), (0xF, 1)])) (fun t => (t.reg 1, t.reg 0xF)) = some (0xFE, 0) := by decide
/-- T235. -/
theorem test_subnReg_equal : ok (run1 0x8127 (withRegs [(1, 7), (2, 7)])) (fun t => (t.reg 1, t.reg 0xF)) = some (0, 1) := by decide
/-- T237. -/
theorem test_shl : ok (run1 0x812E (withRegs [(1, 0x81)])) (fun t => (t.reg 1, t.reg 0xF)) = some (2, 1) := by decide
/-- T242. -/
theorem test_shl_vf : ok (run1 0x8F1E (withRegs [(0xF, 0xC1)])) (fun t => t.reg 0xF) = some 0x82 := by decide
/-- R152: exactly one byte is drawn. -/
theorem test_rnd_draws_one : ok (run1 0xC30F State.reset) (fun t => (t.draws, t.pc)) = some (1, 0x202) := by decide
/-- T302. -/
theorem test_ldI : ok (run1 0xAFFF (State.reset.setI 0xF123)) (fun t => t.i) = some 0x0FFF := by decide
/-- T306. -/
theorem test_addI_wraps : ok (run1 0xF11E ((withRegs [(1, 1)]).setI 0xFFFF)) (fun t => t.i) = some 0 := by decide
/-- T305. -/
theorem test_addI_past_0xFFF : ok (run1 0xF11E ((withRegs [(1, 1)]).setI 0x0FFF)) (fun t => (t.i, t.reg 0xF)) = some (0x1000, 0) := by decide
/-- T308. -/
theorem test_ldF : ok (run1 0xF429 (withRegs [(4, 0x0A)])) (fun t => t.i) = some 0x82 := by decide
/-- T312. -/
theorem test_ldF_not_masked : ok (run1 0xF129 (withRegs [(1, 0xFF)])) (fun t => t.i) = some 0x54B := by decide
/-- T314. -/
theorem test_ldB : ok (run1 0xF333 ((withRegs [(3, 0xEA)]).setI 0x300)) (fun t => (Memory.readBytes t.mem 0x300 4, t.i)) =
    some ([2, 3, 4, 0], 0x300) := by decide
/-- T319. -/
theorem test_ldB_partial : err (run1 0xF133 ((withRegs [(1, 0xFF)]).setI 0xFFE)) (fun t => (Memory.readBytes t.mem 0xFFE 2, t.pc)) =
    some (.outOfBounds, [2, 5], 0x202) := by decide
/-- T324. -/
theorem test_ldMemVx : ok (run1 0xF255 ((withRegs [(0, 0x11), (1, 0x22), (2, 0x33), (3, 0x44)]).setI 0x400))
    (fun t => (Memory.readBytes t.mem 0x400 4, t.i)) = some ([0x11, 0x22, 0x33, 0], 0x400) := by decide
/-- T328. -/
theorem test_ldMemVx_below : err (run1 0xF155 ((withRegs [(0, 0x11), (1, 0x22)]).setI 0x1FF)) (fun t => Memory.readBytes t.mem 0x1FF 3) =
    some (.outOfBounds, [0, 0xF1, 0x55]) := by decide
/-- T330. -/
theorem test_ldVxMem : ok (run1 0xF465 (State.reset.setI 0x50)) (fun t => [t.reg 0, t.reg 1, t.reg 4, t.reg 5]) =
    some [0xF0, 0x90, 0xF0, 0] := by decide
/-- T333. -/
theorem test_ldVxMem_partial : err (run1 0xF365 (poke 0xFFE [0xAA, 0xBB] ((withRegs [(0, 1), (1, 2), (2, 3)]).setI 0xFFE)))
    (fun t => [t.reg 0, t.reg 1, t.reg 2]) = some (.outOfBounds, [0xAA, 0xBB, 3]) := by decide
/-- T405, four of its 22 pixels and one left off: the box at (60,30) wraps in both directions. -/
theorem test_drw_wraps : ok (run1 0xD015 (poke 0x300 [0xFF, 0x81, 0x81, 0x81, 0xFF] ((withRegs [(0, 0x3C), (1, 0x1E)]).setI 0x300)))
    (fun t => ([pixelAt t 60 30, pixelAt t 3 30, pixelAt t 0 2, pixelAt t 60 0, pixelAt t 0 31], t.reg 0xF)) =
    some ([some true, some true, some true, some true, some false], 0) := by decide
/-- T408: a collision in row 0 is kept through row 1. -/
theorem test_drw_collision : ok (run1 0xD012 (poke 0x300 [0x80, 0x80] ((State.reset.setI 0x300).setFb (State.reset.fb.set 0 1))))
    (fun t => (pixelAt t 0 0, pixelAt t 0 1, t.reg 0xF)) = some (some false, some true, 1) := by decide
/-- T502: the key tested is V3's value, not the field. -/
theorem test_skp : ok (run1 0xE39E ((withRegs [(3, 0x0A)]).setKeys (State.reset.key.set 3 true))) (fun t => t.pc) = some 0x202 := by decide
/-- T506. -/
theorem test_skp_out_of_bounds : err (run1 0xE19E (withRegs [(1, 0x10)])) (fun t => t.pc) = some (.outOfBounds, 0x202) := by decide
/-- T503. -/
theorem test_sknp : ok (run1 0xE3A1 (withRegs [(3, 0x0A)])) (fun t => t.pc) = some 0x204 := by decide
/-- T511. -/
theorem test_ldVxDt : ok (run1 0xF507 (State.reset.setDt 0x2A)) (fun t => (t.reg 5, t.dt)) = some (0x2A, 0x2A) := by decide
/-- T512. -/
theorem test_ldVxK_waits : ok (run1 0xF10A State.reset) (fun t => (t.pc, t.reg 1)) = some (0x200, 0) := by decide
/-- T514. -/
theorem test_ldVxK_lowest : ok (run1 0xF10A (State.reset.setKeys ((State.reset.key.set 9 true).set 3 true))) (fun t => (t.pc, t.reg 1)) =
    some (0x202, 3) := by decide
/-- T517. -/
theorem test_ldDtVx : ok (run1 0xF215 (withRegs [(2, 0x3C)])) (fun t => (t.dt, t.st)) = some (0x3C, 0) := by decide
/-- T519. -/
theorem test_ldStVx : ok (run1 0xF218 (withRegs [(2, 5)])) (fun t => (t.st, tone t)) = some (5, true) := by decide

/-! ### The cycle and the Host's transactions -/

/-- T133: a failing fetch leaves the pc. -/
theorem test_fetch_below : err (step (booted.setPc 0x1FE)) (fun t => t.pc) = some (.outOfBounds, 0x1FE) := by decide
/-- T120. -/
theorem test_invalid_word : err (run1 0x5121 State.reset) (fun t => t.pc) = some (.invalidOpcode, 0x202) := by decide
/-- T105, its second cycle: an odd pc is fetched. -/
theorem test_odd_pc : ok (step (poke 0x201 [0x6A, 0x07] (booted.setPc 0x201))) (fun t => (t.reg 0xA, t.pc)) = some (7, 0x203) := by decide
/-- R34: the descriptor of the last executed instruction. -/
theorem test_trace : ok (run1 0x63CF State.reset) (fun t => traceDescriptor t) = some (some ⟨"LD", [.reg 3, .byte 0xCF]⟩) := by decide
/-- T522. -/
theorem test_tick : ok (step ((((State.reset.setDt 0xFF).setSt 2)).setHost [.tick, .cycle])) (fun t => (t.dt, t.st, t.host)) =
    some (0xFE, 1, [.cycle]) := by decide
/-- T521. -/
theorem test_tick_floor : ok (step ((State.reset.setDt 1).setHost [.tick])) (fun t => (t.dt, t.st)) = some (0, 0) := by decide
/-- R187. -/
theorem test_setKey : ok (step (State.reset.setHost [.setKey 11 true])) (fun t => (t.key[11], t.key[10])) = some (true, false) := by decide
/-- T703. -/
theorem test_loadProgram : ok (step (State.reset.setHost [.loadProgram [0x12, 0x00]])) (fun t => (t.mem, t.phase)) =
    some ([(0x200, 0x12)], .loaded) := by decide
/-- R242, R244: a cycle before boot is refused, and after a load it runs. -/
theorem test_cycle_before_boot : step State.reset = .refused .cycleBeforeBoot ∧
    step (State.reset.setHost [.cycle, .tick]) = .refused .cycleBeforeBoot := ⟨rfl, rfl⟩
theorem test_cycle_after_load : ok (andThen (step (State.reset.setHost [.loadProgram [0x63, 0xCF]])) step) (fun t => (t.reg 3, t.pc)) =
    some (0xCF, 0x202) := by decide
/-- R241, R243: a loaded program is lost. -/
theorem test_host_reset : ok (step ((poke 0x300 [1] ((withRegs [(3, 9)]).setDt 7)).setHost [.reset])) (fun t => (t.mem, t.reg 3, t.dt)) =
    some ([], 0, 0) := by decide

/-! ### Witnesses: a concrete state and operands that meet all the hypotheses of a statement together, each clause at a boundary -/

/-- The state with the word where its next cycle fetches it. -/
def holding (w : Nat) (s : State) : State := s.withFetchWord 16 w

/-- I at a, everything else as after reset. -/
def atI (a : Word) : State := State.reset.setI a

theorem witness_DecodeOfEncodeIsIdentity : Instr.wellFormed (.drw 0xF 0xF 0xF) = true ∧ Instr.wellFormed (.sys 0xFFF) = true := by decide
theorem witness_EncodeOfDecodeIsIdentity : decodeWord 0xFF65 = .ok (.ldVxMem 0xF) := by decide
theorem witness_BytesDecodeHighByteFirst : Instr.wellFormed (.jpV0 0xFFF) = true ∧ decodeBytes [0xBF, 0xFF] = .ok (.jpV0 0xFFF, []) ∧
    ([0x12] : List Byte).length < 2 ∧ ([] : List Byte).length < 2 := by decide

/-- The first and the last address a fetch accepts, with the Host's list empty and with a cycle first on it. -/
theorem witness_StepRunsTheDecodedInstruction :
    (CycleIsNext (holding 0x63CF State.reset) [] ∧ Fetchable (holding 0x63CF State.reset) ∧
      decodeBytes (Memory.readBytes (holding 0x63CF State.reset).mem (holding 0x63CF State.reset).pc.toNat 2) = .ok (.ldByte 3 0xCF, [])) ∧
    CycleIsNext ((holding 0x63CF (State.reset.setPc 0xFFE)).setHost [.cycle, .tick]) [.tick] ∧
      Fetchable (holding 0x63CF (State.reset.setPc 0xFFE)) := by
  unfold CycleIsNext CycleIsInvoked Fetchable
  decide

theorem witness_FetchOutsideProgramRegionRaises : CycleIsNext (booted.setPc 0x1FF) [] ∧ ¬ Fetchable (booted.setPc 0x1FF) ∧
    CycleIsNext (booted.setPc 0xFFF) [] ∧ ¬ Fetchable (booted.setPc 0xFFF) := by
  unfold CycleIsNext CycleIsInvoked Fetchable
  decide

theorem witness_UndefinedWordRaisesInvalidOpcode : CycleIsNext (holding 0x5121 State.reset) [] ∧ Fetchable (holding 0x5121 State.reset) ∧
    decodeBytes (Memory.readBytes (holding 0x5121 State.reset).mem 0x200 2) = .error (.noHandler 0x5121) := by
  unfold CycleIsNext CycleIsInvoked Fetchable
  decide

theorem witness_ErrorLeavesPcAfterInstruction : CycleIsNext (holding 0x00EE State.reset) [] ∧ Fetchable (holding 0x00EE State.reset) ∧
    ∃ f : Fault, step (holding 0x00EE State.reset) = .fault f :=
  ⟨⟨.inl ⟨rfl, rfl⟩, by decide⟩, by unfold Fetchable; decide, _, rfl⟩

theorem witness_StoredWordIsFetchedNext : (∃ t : State, exec (.ldMemVx 1) (atI 0x200) = .next t) ∧ Fetchable (atI 0x200) ∧
    (atI 0x200).i.toNat ≤ (atI 0x200).pc.toNat ∧ (atI 0x200).pc.toNat + 1 ≤ (atI 0x200).i.toNat + (1 : Reg).toNat :=
  ⟨⟨_, rfl⟩, by unfold Fetchable; decide, by decide, by decide⟩

theorem witness_HostResetForgetsEverything : ((poke 0x300 [1] State.reset).setHost [.reset, .cycle]).host = .reset :: [.cycle] := by decide

/-- A register dump in a cycle, from a state whose memory is not the reset one. -/
theorem witness_StepKeepsTheInvariant_and_LowMemoryNeverChanges :
    (holding 0xF255 ((withRegs [(0, 0x11)]).setI 0x400)).Inv ∧
      ∃ t : State, step (holding 0xF255 ((withRegs [(0, 0x11)]).setI 0x400)) = .next t :=
  ⟨by decide, _, rfl⟩

/-- A decimal store that fails on its third byte. -/
theorem witness_ErrorsKeepTheInvariant : (holding 0xF133 ((withRegs [(1, 0xFF)]).setI 0xFFE)).Inv ∧
    ∃ f : Fault, step (holding 0xF133 ((withRegs [(1, 0xFF)]).setI 0xFFE)) = .fault f :=
  ⟨by decide, _, rfl⟩

theorem witness_OnlyFlagWritersTouchVf : ¬ WritesFlag (.ldVxMem 0xE) ∧ ¬ NamesVfAsDestination (.ldVxMem 0xE) :=
  ⟨fun h => h, fun h => absurd (show (0xE : Reg) = vF from h) (by decide)⟩

theorem witness_FlagsAreZeroOrOne : (∃ t : State, exec (.addReg 0xF 1) State.reset = .next t) ∧
    (∃ t : State, exec (.drw 0 0 5) (atI 0x50) = .next t) ∧
    (0xE : Reg) ≠ vF ∧ (∃ t : State, exec (.subReg 0xE 1) State.reset = .next t) ∧ (∃ t : State, exec (.shr 0xE 1) State.reset = .next t) ∧
    (∃ t : State, exec (.subnReg 0xE 1) State.reset = .next t) ∧ ∃ t : State, exec (.shl 0xE 1) State.reset = .next t :=
  ⟨⟨_, rfl⟩, ⟨_, rfl⟩, by decide, ⟨_, rfl⟩, ⟨_, rfl⟩, ⟨_, rfl⟩, ⟨_, rfl⟩⟩

theorem witness_SoundTimerIsNeverRead : ∀ x : Reg, Instr.ldDtVx 0 ≠ .ldStVx x := by decide

/-- Depth 0, depth 15 and the full stack. -/
theorem witness_CallPushesAndReturnRestores : State.reset.sp.val < 16 ∧ (State.reset.setStack 15 State.reset.stack).sp.val < 16 ∧
    (State.reset.setStack 16 State.reset.stack).sp.val = 16 := by decide

/-- Depth 1, the full stack and the empty one. -/
theorem witness_ReturnPops : 0 < (State.reset.setStack 1 State.reset.stack).sp.val ∧
    0 < (State.reset.setStack 16 State.reset.stack).sp.val ∧ State.reset.sp.val = 0 := by decide

/-- For the clauses of AddRegisters, SubtractRegisters, SubtractReversed and ShiftsByOne about a destination other than VF, and for
AddThenSubtractRestores. -/
theorem witness_registers_other_than_vf : (0xE : Reg) ≠ vF ∧ (0 : Reg) ≠ vF ∧ (0xE : Reg) ≠ 0 := by decide

theorem witness_RandomByteIsMasked : (0x0F : Byte).getLsbD 4 = false := by decide

theorem witness_FontAddressFindsTheGlyph : (withRegs [(1, 0xF)]).Inv ∧ ((withRegs [(1, 0xF)]).reg 1).toNat < 16 := by decide

/-- The first and the last place the three digits fit. -/
theorem witness_BcdStoresThreeDigits : Writable (atI 0x200).i.toNat 3 ∧ Writable (atI 0xFFD).i.toNat 3 := by
  unfold Writable
  decide

/-- No digit, one digit and two digits fit. -/
theorem witness_BcdStopsAtFirstBadByte :
    (0 < 3 ∧ Writable (atI 0x1FF).i.toNat 0 ∧ ¬ Writable ((atI 0x1FF).i.toNat + 0) 1) ∧
    (1 < 3 ∧ Writable (atI 0xFFF).i.toNat 1 ∧ ¬ Writable ((atI 0xFFF).i.toNat + 1) 1) ∧
    (2 < 3 ∧ Writable (atI 0xFFE).i.toNat 2 ∧ ¬ Writable ((atI 0xFFE).i.toNat + 2) 1) := by
  unfold Writable
  decide

theorem witness_DumpStoresRegistersInclusive : Writable (atI 0x200).i.toNat ((0 : Reg).toNat + 1) ∧
    Writable (atI 0xFF0).i.toNat ((0xF : Reg).toNat + 1) := by
  unfold Writable
  decide

theorem witness_DumpStopsAtFirstBadByte :
    (0 ≤ (0 : Reg).toNat ∧ Writable (atI 0x1FF).i.toNat 0 ∧ ¬ Writable ((atI 0x1FF).i.toNat + 0) 1) ∧
    (15 ≤ (0xF : Reg).toNat ∧ Writable (atI 0xFF1).i.toNat 15 ∧ ¬ Writable ((atI 0xFF1).i.toNat + 15) 1) := by
  unfold Writable
  decide

theorem witness_LoadFillsRegistersInclusive : (atI 0xFF0).i.toNat + (0xF : Reg).toNat < 4096 ∧ (atI 0).i.toNat + (0 : Reg).toNat < 4096 := by
  decide

theorem witness_LoadStopsAtFirstBadByte : 4096 ≤ (atI 0xFF1).i.toNat + (0xF : Reg).toNat ∧ 4096 ≤ (atI 0x1000).i.toNat + (0 : Reg).toNat := by
  decide

theorem witness_DrawXorsTheSpriteAndReportsCollision : (atI 0xFF1).i.toNat + (0xF : Nibble).toNat ≤ 4096 ∧
    (atI 0x1000).i.toNat + (0 : Nibble).toNat ≤ 4096 := by decide

theorem witness_DrawPastMemoryRaises : 4096 < (atI 0xFF2).i.toNat + (0xF : Nibble).toNat ∧ 4096 < (atI 0x1001).i.toNat + (0 : Nibble).toNat := by
  decide

theorem witness_DrawTwiceRestoresTheDisplay : (0 : Reg) ≠ vF ∧ (1 : Reg) ≠ vF ∧ (atI 0x50).i.toNat + (5 : Nibble).toNat ≤ 4096 ∧
    (∃ row col : Nat, row < (5 : Nibble).toNat ∧ col < 8 ∧
      (Memory.read (atI 0x50).mem ((atI 0x50).i.toNat + row)).getLsbD (7 - col) = true) ∧ (atI 0x50).fb = State.reset.fb :=
  ⟨by decide, by decide, by decide, ⟨4, 3, by decide, by decide, by decide⟩, rfl⟩

theorem witness_SkipsOnKey : ((withRegs [(1, 15)]).reg 1).toNat < 16 ∧ 15 < ((withRegs [(1, 16)]).reg 1).toNat := by decide

theorem witness_KeyWaitTakesTheLowestKey :
    (keyState (State.reset.setKeys (State.reset.key.set 15 true)) 15 = some true ∧
      ∀ j : Nat, j < 15 → keyState (State.reset.setKeys (State.reset.key.set 15 true)) j = some false) ∧
    ∀ k : Nat, k < 16 → keyState State.reset k = some false := by decide

theorem witness_KeyWaitCycleIsIdle : CycleIsNext (holding 0xF10A State.reset) [] ∧ Fetchable (holding 0xF10A State.reset) ∧
    decodeBytes (Memory.readBytes (holding 0xF10A State.reset).mem (holding 0xF10A State.reset).pc.toNat 2) = .ok (.ldVxK 1, []) ∧
    ∀ k : Nat, k < 16 → keyState (holding 0xF10A State.reset) k = some false := by
  unfold CycleIsNext CycleIsInvoked Fetchable
  decide

theorem witness_TickCountsBothTimersDown : (State.reset.setHost [.tick]).host = .tick :: [] := by decide

theorem witness_SetKeyChangesOneKey : (State.reset.setHost [.setKey 15 true]).host = .setKey 15 true :: [] ∧ 15 < 16 ∧
    (State.reset.setHost [.setKey 16 true]).host = .setKey 16 true :: [] ∧ 16 ≤ 16 := by decide

/-- The largest image that fits, one byte more, and a load after a cycle. -/
theorem witness_LoadProgramCopiesOrFails :
    (∃ bs : List Byte, (State.reset.setHost [.loadProgram bs]).host = .loadProgram bs :: [] ∧
      (State.reset.setHost [.loadProgram bs]).phase = .fresh ∧ bs.length = progEnd - progBase) ∧
    (∃ bs : List Byte, (State.reset.setHost [.loadProgram bs]).host = .loadProgram bs :: [] ∧
      (State.reset.setHost [.loadProgram bs]).phase = .fresh ∧ bs.length = progEnd - progBase + 1) ∧
    (booted.setHost [.loadProgram [0]]).phase ≠ .fresh ∧
    CycleIsInvoked State.reset [] ∧ CycleIsInvoked (State.reset.setHost [.cycle, .tick]) [.tick] ∧ State.reset.phase = .fresh :=
  ⟨⟨List.replicate (progEnd - progBase) 0, rfl, rfl, List.length_replicate⟩,
    ⟨List.replicate (progEnd - progBase + 1) 0, rfl, rfl, List.length_replicate⟩, by decide, .inl ⟨rfl, rfl⟩, .inr rfl, rfl⟩

/-- The tone starting by a cycle of LD ST,Vx, and ending by a tick, by a cycle of LD ST,Vx and by the Host's reset. -/
theorem witness_ToneStartsOnlyByLoadSt :
    (∃ t : State, step (holding 0xF218 (withRegs [(2, 5)])) = .next t ∧
      toneEvent (holding 0xF218 (withRegs [(2, 5)])) t = some .becameNonzero) ∧
    (∃ t : State, step ((State.reset.setSt 1).setHost [.tick]) = .next t ∧
      toneEvent ((State.reset.setSt 1).setHost [.tick]) t = some .reachedZero) ∧
    (∃ t : State, step (holding 0xF218 (State.reset.setSt 9)) = .next t ∧
      toneEvent (holding 0xF218 (State.reset.setSt 9)) t = some .reachedZero) ∧
    ∃ t : State, step ((State.reset.setSt 9).setHost [.reset]) = .next t ∧
      toneEvent ((State.reset.setSt 9).setHost [.reset]) t = some .reachedZero :=
  ⟨⟨_, rfl, rfl⟩, ⟨_, rfl, rfl⟩, ⟨_, rfl, rfl⟩, ⟨_, rfl, rfl⟩⟩

theorem witness_DelayTimerNeverRisesByItself : (∃ t : State, step ((State.reset.setDt 0).setHost [.tick]) = .next t) ∧
    ∃ t : State, step (holding 0xF215 (withRegs [(2, 0x3C)])) = .next t :=
  ⟨⟨_, rfl⟩, ⟨_, rfl⟩⟩

end Sys2Proof.Tests
end

section
/-! PROOF. The fields of a word and the word of its fields undo each other (spec/30_encoding.md R91 to R93). Both directions are
arithmetic on the digits in base 16 that `Laws/Decode` gives for each field. -/

namespace Sys2Proof

/-- The four digits of a word in base 16, put together again (R93). -/
theorem wordOf_fieldsOf (w : Word) : wordOf (fieldsOf w) = w := by
  apply BitVec.eq_of_toNat_eq
  rw [toNat_wordOf, fieldsOf_op, fieldsOf_x, fieldsOf_y, fieldsOf_n]
  omega

theorem toNat_addressOf_fieldsOf (w : Word) : (addressOf (fieldsOf w)).toNat = w.toNat % 4096 := by
  rw [toNat_addressOf, fieldsOf_x, fieldsOf_y, fieldsOf_n]
  omega

theorem toNat_immediateOf_fieldsOf (w : Word) : (immediateOf (fieldsOf w)).toNat = w.toNat % 256 := by
  rw [toNat_immediateOf, fieldsOf_y, fieldsOf_n]
  omega

theorem Fields.eq_of_toNat_eq {f g : Fields} (hop : f.op.toNat = g.op.toNat) (hx : f.x.toNat = g.x.toNat)
    (hy : f.y.toNat = g.y.toNat) (hn : f.n.toNat = g.n.toNat) : f = g := by
  cases f
  cases g
  rw [Fields.mk.injEq]
  exact ⟨BitVec.eq_of_toNat_eq hop, BitVec.eq_of_toNat_eq hx, BitVec.eq_of_toNat_eq hy, BitVec.eq_of_toNat_eq hn⟩

/-- Each nibble is below 16, so it is the digit of the word in its place. -/
theorem fieldsOf_wordOf (f : Fields) : fieldsOf (wordOf f) = f := by
  have hw := toNat_wordOf f
  have hx := f.x.isLt
  have hy := f.y.isLt
  have hn := f.n.isLt
  apply Fields.eq_of_toNat_eq
  · rw [fieldsOf_op]; omega
  · rw [fieldsOf_x]; omega
  · rw [fieldsOf_y]; omega
  · rw [fieldsOf_n]; omega

/-- Settles O3: the two round trips between words and fields, and the numeric values of a word's parts. -/
theorem fieldsReassembleTheWord : Obligations.FieldsReassembleTheWord :=
  ⟨fun w => ⟨wordOf_fieldsOf w, toNat_addressOf_fieldsOf w, toNat_immediateOf_fieldsOf w⟩,
    fun f => ⟨fieldsOf_wordOf f, toNat_wordOf f, toNat_addressOf f, toNat_immediateOf f⟩⟩

end Sys2Proof
end

section
/-! PROOF. The skips of SE and SNE with a byte (spec/40_control_flow.md R125, R126, R130). Whatever decides the skip, the instruction
completes with `State.skipIf`; what is left is that the model's test on bytes is the comparison of their unsigned values. -/

namespace Sys2Proof.Machine

/-- An instruction that completes with a skip adds 2 to the pc exactly when the condition holds and changes nothing else (R130). -/
theorem skips_of_exec_eq_skipIf {i : Instr} {s : State} {c : Bool} {p : Prop} [Decidable p]
    (hexec : exec i s = .next (s.skipIf c)) (hcp : c = true ↔ p) :
    ∃ t : State, exec i s = .next t ∧ t.pc = (if p then s.pc + 2 else s.pc) ∧ OnlyChanges [.pc] s t := by
  refine ⟨s.skipIf c, hexec, ?_, onlyChanges_skipIf s c⟩
  simp only [State.skipIf_pc, hcp]

/-- The test of SE: bytes are equal exactly when their unsigned values are. -/
theorem decide_eq_iff_toNat_eq (a b : Byte) : decide (a = b) = true ↔ a.toNat = b.toNat :=
  decide_eq_true_iff.trans BitVec.toNat_inj.symm

/-- The test of SNE: bytes differ exactly when their unsigned values do. -/
theorem decide_ne_iff_toNat_ne (a b : Byte) : decide (a ≠ b) = true ↔ a.toNat ≠ b.toNat :=
  decide_eq_true_iff.trans BitVec.toNat_inj.symm.not

theorem exec_seByte (x : Reg) (kk : Byte) (s : State) :
    exec (.seByte x kk) s = .next (s.skipIf (decide (s.reg x = kk))) := rfl

theorem exec_sneByte (x : Reg) (kk : Byte) (s : State) :
    exec (.sneByte x kk) s = .next (s.skipIf (decide (s.reg x ≠ kk))) := rfl

/-- Settles O29: each of the two is a skip on its comparison with the byte. -/
theorem skipsOnByte : Obligations.SkipsOnByte := by
  intro x kk s
  constructor
  · exact skips_of_exec_eq_skipIf (exec_seByte x kk s) (decide_eq_iff_toNat_eq (s.reg x) kk)
  · exact skips_of_exec_eq_skipIf (exec_sneByte x kk s) (decide_ne_iff_toNat_ne (s.reg x) kk)

end Sys2Proof.Machine
end

section
/-! PROOF. The instructions that write one register and no flag: LD, ADD with a byte, OR, AND, XOR (spec/41_register_alu.md R141 to
R146). Each completes with a single `State.setReg`, whose frame is shared; what is left is what the byte written is. -/

namespace Sys2Proof.Machine

/-- An instruction that completes by writing a byte with property P to Vx leaves it there and changes nothing else, VF included
unless x = 0xF. -/
theorem writesOneReg_of_exec_eq_setReg {i : Instr} {s : State} {x : Reg} {b : Byte} (P : Byte → Prop)
    (hexec : exec i s = .next (s.setReg x b)) (hb : P b) :
    ∃ t : State, exec i s = .next t ∧ P (t.reg x) ∧ RegsSameBut [x] s t ∧ OnlyChanges [.regs] s t := by
  refine ⟨s.setReg x b, hexec, ?_, regsSameBut_setReg s x b, onlyChanges_setReg s x b⟩
  rw [State.reg_setReg_same]
  exact hb

theorem exec_ldByte (x : Reg) (kk : Byte) (s : State) : exec (.ldByte x kk) s = .next (s.setReg x kk) := rfl

theorem exec_addByte (x : Reg) (kk : Byte) (s : State) :
    exec (.addByte x kk) s = .next (s.setReg x (s.reg x + kk)) := rfl

theorem exec_ldReg (x y : Reg) (s : State) : exec (.ldReg x y) s = .next (s.setReg x (s.reg y)) := rfl

theorem exec_orReg (x y : Reg) (s : State) : exec (.orReg x y) s = .next (s.setReg x (s.reg x ||| s.reg y)) := rfl

theorem exec_andReg (x y : Reg) (s : State) : exec (.andReg x y) s = .next (s.setReg x (s.reg x &&& s.reg y)) := rfl

theorem exec_xorReg (x y : Reg) (s : State) : exec (.xorReg x y) s = .next (s.setReg x (s.reg x ^^^ s.reg y)) := rfl

/-- Settles O32: each of the three writes one register; the sum of two bytes is the sum of their values modulo 256. -/
theorem registerMovesAndByteAdd : Obligations.RegisterMovesAndByteAdd := by
  intro x y kk s
  refine ⟨?_, ?_, ?_⟩
  · exact writesOneReg_of_exec_eq_setReg (· = kk) (exec_ldByte x kk s) rfl
  · exact writesOneReg_of_exec_eq_setReg (·.toNat = ((s.reg x).toNat + kk.toNat) % 256) (exec_addByte x kk s)
      (BitVec.toNat_add (s.reg x) kk)
  · exact writesOneReg_of_exec_eq_setReg (· = s.reg y) (exec_ldReg x y s) rfl

/-- Settles O33: each of the three writes one register with the bitwise operation of two bytes, known bit by bit. -/
theorem bitwiseOperations : Obligations.BitwiseOperations := by
  intro x y s
  refine ⟨?_, ?_, ?_⟩
  · exact writesOneReg_of_exec_eq_setReg
      (fun b => ∀ k < 8, b.getLsbD k = ((s.reg x).getLsbD k || (s.reg y).getLsbD k)) (exec_orReg x y s)
      fun _ _ => BitVec.getLsbD_or
  · exact writesOneReg_of_exec_eq_setReg
      (fun b => ∀ k < 8, b.getLsbD k = ((s.reg x).getLsbD k && (s.reg y).getLsbD k)) (exec_andReg x y s)
      fun _ _ => BitVec.getLsbD_and
  · exact writesOneReg_of_exec_eq_setReg
      (fun b => ∀ k < 8, b.getLsbD k = ((s.reg x).getLsbD k ^^ (s.reg y).getLsbD k)) (exec_xorReg x y s)
      fun _ _ => BitVec.getLsbD_xor

end Sys2Proof.Machine
end

section
/-! PROOF. CLS (spec/43_display.md R170). It completes with a single `State.setFb`, whose frame is a law of the state; what is left is
that the framebuffer it stores has no pixel on, in whatever place the Host asks for (R172). -/

namespace Sys2Proof.Machine

/-- Inside the screen the Host's query reads the framebuffer in row-major order (R30, R172). -/
theorem pixelAt_eq_some_pixel (s : State) {x y : Nat} (hx : x < 64) (hy : y < 32) :
    pixelAt s x y = some (pixel s.fb (y * 64 + x)) :=
  if_pos ⟨hx, hy⟩

/-- Of a framebuffer whose rows are all zero, no pixel is on. -/
@[simp] theorem pixel_replicate_zero (k : Nat) : pixel (Vector.replicate 32 0) k = false := by
  rw [pixel]
  split
  · rw [Vector.getElem_replicate]
    exact BitVec.getLsbD_zero
  · rfl

theorem exec_cls (s : State) : exec .cls s = .next (s.setFb (Vector.replicate 32 0)) := rfl

/-- Settles O48: whatever stood on the screen, CLS stores a framebuffer of zero rows and writes nothing else. -/
theorem clearScreenTurnsEveryPixelOff : Obligations.ClearScreenTurnsEveryPixelOff := by
  intro s
  refine ⟨s.setFb (Vector.replicate 32 0), exec_cls s, fun x y hx hy => ?_, onlyChanges_setFb s _⟩
  rw [pixelAt_eq_some_pixel _ hx hy, State.setFb_fb, pixel_replicate_zero]

end Sys2Proof.Machine
end

section
/-! PROOF. The decoder undoes the encoder, on words and on bytes (spec/30_encoding.md R90 to R97, spec/20_memory.md R69). Each
format of a word has its fields back from it, so the two-level dispatch meets the very fields the encoder put in. -/

namespace Sys2Proof

/-! ### The round trip from an instruction (R94) -/

/-- A word of format NNN decodes as the family says of every word with its opcode nibble and its address. -/
theorem decodeWord_formNNN {op : Nibble} {nnn : Addr12} {i : Instr}
    (h : ∀ x y n, addressOf ⟨op, x, y, n⟩ = nnn → decodeFields ⟨op, x, y, n⟩ = .ok i) :
    decodeWord (formNNN op nnn) = .ok i := by
  have hop : (fieldsOf (formNNN op nnn)).op = op := by
    apply BitVec.eq_of_toNat_eq
    rw [fieldsOf_op, toNat_formNNN]
    omega
  have haddr : addressOf (fieldsOf (formNNN op nnn)) = nnn := by
    apply BitVec.eq_of_toNat_eq
    rw [toNat_addressOf_fieldsOf, toNat_formNNN]
    omega
  rw [decodeWord]
  revert hop haddr
  rcases fieldsOf (formNNN op nnn) with ⟨_, x, y, n⟩
  rintro rfl
  exact h x y n

/-- A word of format XKK or X decodes as the family says of every word with its opcode nibble, x field and low byte. -/
theorem decodeWord_formXKK {op : Nibble} {x : Reg} {kk : Byte} {i : Instr}
    (h : ∀ y n, immediateOf ⟨op, x, y, n⟩ = kk → decodeFields ⟨op, x, y, n⟩ = .ok i) :
    decodeWord (formXKK op x kk) = .ok i := by
  have hop : (fieldsOf (formXKK op x kk)).op = op := by
    apply BitVec.eq_of_toNat_eq
    rw [fieldsOf_op, toNat_formXKK]
    omega
  have hx : (fieldsOf (formXKK op x kk)).x = x := by
    apply BitVec.eq_of_toNat_eq
    rw [fieldsOf_x, toNat_formXKK]
    omega
  have hkk : immediateOf (fieldsOf (formXKK op x kk)) = kk := by
    apply BitVec.eq_of_toNat_eq
    rw [toNat_immediateOf_fieldsOf, toNat_formXKK]
    omega
  rw [decodeWord]
  revert hop hx hkk
  rcases fieldsOf (formXKK op x kk) with ⟨_, _, y, n⟩
  rintro rfl rfl
  exact h y n

/-- A word of format XY or XYN decodes as its four fields. -/
theorem decodeWord_formXYN (op : Nibble) (x y : Reg) (n : Nibble) : decodeWord (formXYN op x y n) = decodeFields ⟨op, x, y, n⟩ := by
  rw [decodeWord, formXYN_eq_wordOf, fieldsOf_wordOf]

theorem decodeWord_encode {i : Instr} (h : i.wellFormed = true) : decodeWord (encode i) = .ok i := by
  cases i with
  | cls | ret => decide
  | sys nnn =>
    obtain ⟨hcls, hret⟩ : nnn ≠ 0x0E0#12 ∧ nnn ≠ 0x0EE#12 := by simpa [Instr.wellFormed] using h
    refine decodeWord_formNNN fun x y n ha => ?_
    rw [show decodeFields ⟨0x0#4, x, y, n⟩ = .ok (decodeFamily0 _) from rfl, decodeFamily0, ha, if_neg hcls, if_neg hret]
  | jp | call | ldI | jpV0 => exact decodeWord_formNNN fun _ _ _ ha => ha ▸ rfl
  | seByte | sneByte | ldByte | addByte | rnd => exact decodeWord_formXKK fun _ _ hk => hk ▸ rfl
  | seReg | sneReg | drw | ldReg | orReg | andReg | xorReg | addReg | subReg | shr | subnReg | shl =>
    exact decodeWord_formXYN ..
  | skp x | sknp x =>
    refine decodeWord_formXKK fun y n hk => ?_
    rw [show decodeFields ⟨0xE#4, x, y, n⟩ = decodeFamilyE _ from rfl, decodeFamilyE, hk]
    rfl
  | ldVxDt x | ldVxK x | ldDtVx x | ldStVx x | addI x | ldF x | ldB x | ldMemVx x | ldVxMem x =>
    refine decodeWord_formXKK fun y n hk => ?_
    rw [show decodeFields ⟨0xF#4, x, y, n⟩ = decodeFamilyF _ from rfl, decodeFamilyF, hk]
    rfl

/-- Settles O1: the fields the encoder put into the word are the fields the dispatch meets. -/
theorem decodeOfEncodeIsIdentity : Obligations.DecodeOfEncodeIsIdentity := fun _ h => decodeWord_encode h

/-! ### The round trip from a word -/

theorem formNNN_eq_wordOf (f : Fields) : formNNN f.op (addressOf f) = wordOf f := by
  apply BitVec.eq_of_toNat_eq
  rw [toNat_formNNN, toNat_addressOf, toNat_wordOf]
  omega

theorem formXKK_eq_wordOf (f : Fields) : formXKK f.op f.x (immediateOf f) = wordOf f := by
  apply BitVec.eq_of_toNat_eq
  rw [toNat_formXKK, toNat_immediateOf, toNat_wordOf]
  omega

/-- The term is an instruction of the opcode map and w is its word. -/
def IsWordOf (w : Word) (i : Instr) : Prop := encode i = w ∧ i.wellFormed = true

theorem isWordOf_decodeFamily0 (f : Fields) : IsWordOf (formNNN 0x0 (addressOf f)) (decodeFamily0 f) := by
  unfold decodeFamily0
  split_ifs with hcls hret
  · rw [hcls]; exact ⟨by decide, rfl⟩
  · rw [hret]; exact ⟨by decide, rfl⟩
  · exact ⟨rfl, by simp [Instr.wellFormed, hcls, hret]⟩

theorem isWordOf_of_decodeFamily8 {f : Fields} {i : Instr} (h : decodeFamily8 f = .ok i) :
    IsWordOf (formXYN 0x8 f.x f.y f.n) i := by
  unfold decodeFamily8 at h
  iterate 9
    rcases ite_eq_iff.mp h with ⟨hn, h⟩ | ⟨-, h⟩
    · cases h; rw [hn]; exact ⟨rfl, rfl⟩
  cases h

theorem isWordOf_of_decodeFamilyE {f : Fields} {i : Instr} (h : decodeFamilyE f = .ok i) :
    IsWordOf (formXKK 0xE f.x (immediateOf f)) i := by
  unfold decodeFamilyE at h
  split_ifs at h with hk hk <;> cases h <;> rw [hk] <;> exact ⟨rfl, rfl⟩

theorem isWordOf_of_decodeFamilyF {f : Fields} {i : Instr} (h : decodeFamilyF f = .ok i) :
    IsWordOf (formXKK 0xF f.x (immediateOf f)) i := by
  unfold decodeFamilyF at h
  iterate 9
    rcases ite_eq_iff.mp h with ⟨hk, h⟩ | ⟨-, h⟩
    · cases h; rw [hk]; exact ⟨rfl, rfl⟩
  cases h

/-- Families 0x5 and 0x9, second level: the one instruction of the family, where the low nibble is 0. -/
theorem isWordOf_of_decodeXY0 {op : Nibble} {x y n : Nibble} {i j : Instr} {e : DecodeError}
    (hi : IsWordOf (formXYN op x y 0x0) i) (h : (if n = 0x0#4 then .ok i else .error e) = Except.ok j) :
    IsWordOf (wordOf ⟨op, x, y, n⟩) j := by
  split_ifs at h with hn
  cases h
  rw [hn]
  exact hi

/-- The 16 families of the first level (R95). -/
theorem nibble_cases (a : Nibble) : a = 0x0 ∨ a = 0x1 ∨ a = 0x2 ∨ a = 0x3 ∨ a = 0x4 ∨ a = 0x5 ∨ a = 0x6 ∨ a = 0x7 ∨ a = 0x8 ∨
    a = 0x9 ∨ a = 0xA ∨ a = 0xB ∨ a = 0xC ∨ a = 0xD ∨ a = 0xE ∨ a = 0xF := by
  decide +revert

theorem isWordOf_of_decodeFields {f : Fields} {i : Instr} (h : decodeFields f = .ok i) : IsWordOf (wordOf f) i := by
  obtain ⟨op, x, y, n⟩ := f
  rcases nibble_cases op with rfl | rfl | rfl | rfl | rfl | rfl | rfl | rfl | rfl | rfl | rfl | rfl | rfl | rfl | rfl | rfl
  · cases h; rw [← formNNN_eq_wordOf]; exact isWordOf_decodeFamily0 _
  · cases h; exact ⟨formNNN_eq_wordOf ⟨0x1, x, y, n⟩, rfl⟩
  · cases h; exact ⟨formNNN_eq_wordOf ⟨0x2, x, y, n⟩, rfl⟩
  · cases h; exact ⟨formXKK_eq_wordOf ⟨0x3, x, y, n⟩, rfl⟩
  · cases h; exact ⟨formXKK_eq_wordOf ⟨0x4, x, y, n⟩, rfl⟩
  · exact isWordOf_of_decodeXY0 (i := .seReg x y) ⟨rfl, rfl⟩ h
  · cases h; exact ⟨formXKK_eq_wordOf ⟨0x6, x, y, n⟩, rfl⟩
  · cases h; exact ⟨formXKK_eq_wordOf ⟨0x7, x, y, n⟩, rfl⟩
  · exact isWordOf_of_decodeFamily8 h
  · exact isWordOf_of_decodeXY0 (i := .sneReg x y) ⟨rfl, rfl⟩ h
  · cases h; exact ⟨formNNN_eq_wordOf ⟨0xA, x, y, n⟩, rfl⟩
  · cases h; exact ⟨formNNN_eq_wordOf ⟨0xB, x, y, n⟩, rfl⟩
  · cases h; exact ⟨formXKK_eq_wordOf ⟨0xC, x, y, n⟩, rfl⟩
  · cases h; exact ⟨rfl, rfl⟩
  · rw [← formXKK_eq_wordOf]; exact isWordOf_of_decodeFamilyE h
  · rw [← formXKK_eq_wordOf]; exact isWordOf_of_decodeFamilyF h

/-- Settles O2: read family by family, each answer of the dispatch is encoded back from the fields it was read from. -/
theorem encodeOfDecodeIsIdentity : Obligations.EncodeOfDecodeIsIdentity := by
  intro w i h
  have hw := isWordOf_of_decodeFields h
  rwa [wordOf_fieldsOf] at hw

/-! ### Bytes (R69, R90) -/

theorem decodeBytes_cons_cons (hi lo : Byte) (rest : List Byte) :
    decodeBytes (hi :: lo :: rest) = (decodeWord (hi ++ lo)).map (·, rest) := by
  rw [decodeBytes]
  cases decodeWord (hi ++ lo) <;> rfl

theorem decodeBytes_eq_ok_iff {hi lo : Byte} {rest : List Byte} {i : Instr} :
    decodeBytes (hi :: lo :: rest) = .ok (i, rest) ↔ decodeWord (hi ++ lo) = .ok i := by
  rw [decodeBytes_cons_cons]
  cases decodeWord (hi ++ lo) <;> simp [Except.map]

theorem append_bytes_eq_ofNat (hi lo : Byte) : hi ++ lo = BitVec.ofNat 16 (hi.toNat * 256 + lo.toNat) := by
  apply BitVec.eq_of_toNat_eq
  rw [BitVec.toNat_append, ← Nat.shiftLeft_add_eq_or_of_lt lo.isLt, Nat.shiftLeft_eq, BitVec.toNat_ofNat]
  omega

/-- The two bytes of a word, the high one first, are the word. -/
theorem append_bytes_of_word (w : Word) : w.extractLsb' 8 8 ++ w.extractLsb' 0 8 = w := by
  apply BitVec.eq_of_toNat_eq
  rw [append_bytes_eq_ofNat]
  simp only [BitVec.extractLsb'_toNat, Nat.shiftRight_eq_div_pow, BitVec.toNat_ofNat]
  omega

/-- Settles O7: two bytes decode as the word they are, so the round trip of words is one of bytes. -/
theorem bytesDecodeHighByteFirst : Obligations.BytesDecodeHighByteFirst := by
  refine ⟨fun i rest h => ?_, fun hi lo rest i => ?_, fun bs h => ?_⟩
  · exact decodeBytes_eq_ok_iff.mpr (by rw [append_bytes_of_word, decodeWord_encode h])
  · rw [decodeBytes_eq_ok_iff, append_bytes_eq_ofNat]
  · match bs, h with
    | [], _ | [_], _ => rfl

/-- Settles O6: the sample words are closed terms, so the decoder runs on them. -/
theorem sampleWordsDecode : Obligations.SampleWordsDecode := by
  unfold Obligations.SampleWordsDecode
  decide

end Sys2Proof
end

section
/-! PROOF. The words the decoder refuses and the words that are SYS (spec/30_encoding.md R98, R99). The dispatch is inverted
family by family: a refusal says which family the word is of and that no condition of its second level held. -/

namespace Sys2Proof

/-- The fields are those of a word that R98 lists. -/
def NoHandler (f : Fields) : Prop :=
  (f.op.toNat = 0x5 ∧ f.n.toNat ≠ 0) ∨
  (f.op.toNat = 0x8 ∧ f.n.toNat ∈ [8, 9, 0xA, 0xB, 0xC, 0xD, 0xF]) ∨
  (f.op.toNat = 0x9 ∧ f.n.toNat ≠ 0) ∨
  (f.op.toNat = 0xE ∧ (immediateOf f).toNat ∉ [0x9E, 0xA1]) ∨
  (f.op.toNat = 0xF ∧ (immediateOf f).toNat ∉ [0x07, 0x0A, 0x15, 0x18, 0x1E, 0x29, 0x33, 0x55, 0x65])

theorem noHandler_eq_iff {w : Word} {e : DecodeError} : .noHandler w = e ↔ e = .noHandler w := eq_comm

/-- The low nibbles family 0x8 has no handler for are those its dispatch does not name. -/
theorem toNat_mem_undefined8 (n : Nibble) : n.toNat ∈ [8, 9, 0xA, 0xB, 0xC, 0xD, 0xF] ↔
    n ∉ [0x0, 0x1, 0x2, 0x3, 0x4, 0x5, 0x6, 0x7, 0xE] := by
  decide +revert

theorem decodeFamily8_eq_error {f : Fields} {e : DecodeError} : decodeFamily8 f = .error e ↔
    f.n.toNat ∈ [8, 9, 0xA, 0xB, 0xC, 0xD, 0xF] ∧ e = .noHandler (wordOf f) := by
  rw [toNat_mem_undefined8]
  simp [decodeFamily8, ite_eq_iff, noHandler_eq_iff, and_assoc]

theorem decodeFamilyE_eq_error {f : Fields} {e : DecodeError} : decodeFamilyE f = .error e ↔
    (immediateOf f).toNat ∉ [0x9E, 0xA1] ∧ e = .noHandler (wordOf f) := by
  rw [show [0x9E, 0xA1] = [0x9E#8, 0xA1#8].map BitVec.toNat from rfl,
    List.mem_map_of_injective BitVec.toNat_injective]
  unfold decodeFamilyE
  split_ifs <;> simp [*, noHandler_eq_iff]

theorem decodeFamilyF_eq_error {f : Fields} {e : DecodeError} : decodeFamilyF f = .error e ↔
    (immediateOf f).toNat ∉ [0x07, 0x0A, 0x15, 0x18, 0x1E, 0x29, 0x33, 0x55, 0x65] ∧ e = .noHandler (wordOf f) := by
  rw [show [0x07, 0x0A, 0x15, 0x18, 0x1E, 0x29, 0x33, 0x55, 0x65] =
    [0x07#8, 0x0A#8, 0x15#8, 0x18#8, 0x1E#8, 0x29#8, 0x33#8, 0x55#8, 0x65#8].map BitVec.toNat from rfl,
    List.mem_map_of_injective BitVec.toNat_injective]
  simp [decodeFamilyF, ite_eq_iff, noHandler_eq_iff, and_assoc]

theorem decodeXY0_eq_error {n : Nibble} {w : Word} {i : Instr} {e : DecodeError} :
    (if n = 0x0#4 then .ok i else .error (.noHandler w)) = Except.error e ↔ n.toNat ≠ 0 ∧ e = .noHandler w := by
  rw [show n.toNat ≠ 0 ↔ n ≠ 0x0#4 from (BitVec.toNat_inj (y := 0x0#4)).not]
  split_ifs <;> simp [*, noHandler_eq_iff]

theorem decodeFields_eq_error_of_ok {f : Fields} {e : DecodeError} {i : Instr} (h : decodeFields f = .ok i)
    (hf : ¬ NoHandler f) : decodeFields f = .error e ↔ NoHandler f ∧ e = .noHandler (wordOf f) := by
  simp [h, hf]

theorem decodeFields_eq_error {f : Fields} {e : DecodeError} :
    decodeFields f = .error e ↔ NoHandler f ∧ e = .noHandler (wordOf f) := by
  obtain ⟨op, x, y, n⟩ := f
  rcases nibble_cases op with rfl | rfl | rfl | rfl | rfl | rfl | rfl | rfl | rfl | rfl | rfl | rfl | rfl | rfl | rfl | rfl
  iterate 5 · exact decodeFields_eq_error_of_ok rfl (by simp [NoHandler])
  · exact decodeXY0_eq_error.trans (by simp [NoHandler])
  iterate 2 · exact decodeFields_eq_error_of_ok rfl (by simp [NoHandler])
  · exact decodeFamily8_eq_error.trans (by simp [NoHandler])
  · exact decodeXY0_eq_error.trans (by simp [NoHandler])
  iterate 4 · exact decodeFields_eq_error_of_ok rfl (by simp [NoHandler])
  · exact decodeFamilyE_eq_error.trans (by simp [NoHandler])
  · exact decodeFamilyF_eq_error.trans (by simp [NoHandler])

theorem decodeWord_eq_error {w : Word} {e : DecodeError} :
    decodeWord w = .error e ↔ NoHandler (fieldsOf w) ∧ e = .noHandler w := by
  rw [decodeWord, decodeFields_eq_error, wordOf_fieldsOf]

/-- A word is a SYS exactly when it is below 0x1000 and not CLS or RET (R96, R99). -/
theorem decodeWord_eq_sys_iff {w : Word} : (∃ nnn : Addr12, decodeWord w = .ok (.sys nnn)) ↔
    w.toNat < 0x1000 ∧ w.toNat ≠ 0x00E0 ∧ w.toNat ≠ 0x00EE := by
  have wf_iff (nnn : Addr12) : (Instr.sys nnn).wellFormed = true ↔ nnn.toNat ≠ 0x0E0 ∧ nnn.toNat ≠ 0x0EE := by
    simp [Instr.wellFormed, ← BitVec.toNat_inj]
  constructor
  · rintro ⟨nnn, h⟩
    obtain ⟨rfl, hwf⟩ := encodeOfDecodeIsIdentity w (.sys nnn) h
    rw [encode, toNat_formNNN]
    simpa [nnn.isLt] using (wf_iff nnn).mp hwf
  · rintro ⟨hlt, hne⟩
    have hnnn : (w.setWidth 12).toNat = w.toNat := by
      rw [BitVec.toNat_setWidth]
      omega
    have hw : encode (.sys (w.setWidth 12)) = w := by
      apply BitVec.eq_of_toNat_eq
      rw [encode, toNat_formNNN, hnnn]
      simp
    refine ⟨w.setWidth 12, ?_⟩
    have h := decodeWord_encode ((wf_iff (w.setWidth 12)).mpr (by rwa [hnnn]))
    rwa [hw] at h

/-- Settles O5: a word is refused exactly when its fields are listed, and a SYS is known by its encoding. -/
theorem undefinedWordsAreThoseListed : Obligations.UndefinedWordsAreThoseListed := by
  refine ⟨fun w => ?_, fun w => decodeWord_eq_sys_iff⟩
  rw [decodeWord_eq_error, NoHandler, fieldsOf_op, fieldsOf_n, toNat_immediateOf_fieldsOf]
  simp only [and_true]

end Sys2Proof
end

section
/-! PROOF. The dispatch against the mask and match rows of the opcode map (spec/30_encoding.md R95 to R97). Every mask keeps the
whole opcode nibble, so a word meets the rows of its own family only; there, the list of rows and the chain of conditions of the
family's decoder are the same chain. -/

namespace Sys2Proof

open Laws.RowMatch

/-- The number of the first row of the list that the word matches. -/
def firstMatch (rows : List OpcodeRow) (w : Word) : Option Nat := (rows.find? (fun r => r.matches w)).map OpcodeRow.number

theorem firstMatch_cons {r : OpcodeRow} {w : Word} {c : Prop} [Decidable c] (h : r.matches w = true ↔ c) (rows : List OpcodeRow) :
    firstMatch (r :: rows) w = if c then some r.number else firstMatch rows w := by
  by_cases hc : c
  · simp [firstMatch, hc, h.mpr hc]
  · simp [firstMatch, hc, mt h.mp hc]

/-- The rows of one family, in the map's order: the first level of the dispatch (R95). -/
def familyRows (op : Nibble) : List OpcodeRow := opcodeMap.filter (fun r => r.pattern.extractLsb' 12 4 == op)

/-- Every mask keeps the whole opcode nibble, so only the rows of a word's own family can match it. -/
theorem firstMatch_opcodeMap (op : Nibble) (x y n : Nibble) :
    firstMatch opcodeMap (formXYN op x y n) = firstMatch (familyRows op) (formXYN op x y n) := by
  have hmask : ∀ r ∈ opcodeMap, r.mask.extractLsb' 12 4 = 0xF#4 := by decide
  have hop : (formXYN op x y n).extractLsb' 12 4 = op := congrArg Fields.op (fieldsOf_wordOf ⟨op, x, y, n⟩)
  rw [firstMatch, firstMatch, familyRows, List.find?_filter]
  refine congrArg _ (List.find?_congr fun r hr => ?_)
  have h : r.matches (formXYN op x y n) = true → r.pattern.extractLsb' 12 4 = op := fun h => by
    rw [← beq_iff_eq.mp h, BitVec.extractLsb'_and, hmask r hr, hop, and_nibble]
  by_cases hm : r.matches (formXYN op x y n) = true <;> simp [hm, h]

/-- A row that fixes the opcode nibble alone, for formats NNN, XKK and XYN. -/
def rowOp (number : Nat) (op : Nibble) : OpcodeRow := ⟨number, 0xF000#16, op ++ 0x0#4 ++ 0x0#4 ++ 0x0#4⟩

/-- A row that fixes the opcode nibble and the low nibble, for format XY. -/
def rowXY (number : Nat) (op n : Nibble) : OpcodeRow := ⟨number, 0xF00F#16, op ++ 0x0#4 ++ 0x0#4 ++ n⟩

/-- A row that fixes the opcode nibble and the low byte, for format X. -/
def rowX (number : Nat) (op : Nibble) (kk : Byte) : OpcodeRow := ⟨number, 0xF0FF#16, op ++ 0x0#4 ++ kk⟩

/-- A row that fixes the whole word, for CLS and RET. -/
def rowNNN (number : Nat) (op : Nibble) (nnn : Addr12) : OpcodeRow := ⟨number, 0xFFFF#16, formNNN op nnn⟩

theorem firstMatch_rowOp (number : Nat) (op x y n : Nibble) (rows : List OpcodeRow) :
    firstMatch (rowOp number op :: rows) (formXYN op x y n) = some number :=
  (firstMatch_cons (c := True) (iff_true_intro (beq_iff_eq.mpr (mask_formXYN op x y n))) rows).trans (if_pos trivial)

theorem firstMatch_rowXY (number : Nat) (op x y n n' : Nibble) (rows : List OpcodeRow) :
    firstMatch (rowXY number op n' :: rows) (formXYN op x y n) =
      if n = n' then some number else firstMatch rows (formXYN op x y n) := by
  refine firstMatch_cons ?_ rows
  show (formXYN op x y n &&& 0xF00F#16 == op ++ 0x0#4 ++ 0x0#4 ++ n') = true ↔ _
  rw [mask_formXY, beq_iff_eq, BitVec.append_right_inj]

theorem firstMatch_rowX (number : Nat) (op : Nibble) (x : Reg) (kk kk' : Byte) (rows : List OpcodeRow) :
    firstMatch (rowX number op kk' :: rows) (formXKK op x kk) =
      if kk = kk' then some number else firstMatch rows (formXKK op x kk) := by
  refine firstMatch_cons ?_ rows
  show (formXKK op x kk &&& 0xF0FF#16 == op ++ 0x0#4 ++ kk') = true ↔ _
  rw [mask_formX, beq_iff_eq, BitVec.append_right_inj]

theorem firstMatch_rowNNN (number : Nat) (op : Nibble) (nnn nnn' : Addr12) (rows : List OpcodeRow) :
    firstMatch (rowNNN number op nnn' :: rows) (formNNN op nnn) =
      if nnn = nnn' then some number else firstMatch rows (formNNN op nnn) := by
  refine firstMatch_cons ?_ rows
  show (formNNN op nnn &&& BitVec.allOnes 16 == op ++ nnn') = true ↔ _
  rw [BitVec.and_allOnes, beq_iff_eq, formNNN, BitVec.append_right_inj]

/-- The number of the row an answer of the decoder stands for. -/
def answeredRow : Except DecodeError Instr → Option Nat
  | .ok i => some i.rowNumber
  | .error _ => none

/-- A family whose one row fixes the opcode nibble alone. -/
theorem firstMatch_of_rowOp {op : Nibble} {number : Nat} (h : familyRows op = [rowOp number op]) (x y n : Nibble) :
    firstMatch opcodeMap (formXYN op x y n) = some number := by
  rw [firstMatch_opcodeMap, h, firstMatch_rowOp]

/-- Families 0x5 and 0x9, whose one row fixes the low nibble to 0. -/
theorem firstMatch_of_rowXY0 {op : Nibble} {i : Instr} {e : DecodeError} (h : familyRows op = [rowXY i.rowNumber op 0x0])
    (x y n : Nibble) : firstMatch opcodeMap (formXYN op x y n) = answeredRow (if n = 0x0#4 then .ok i else .error e) := by
  rw [firstMatch_opcodeMap, h, firstMatch_rowXY, apply_ite answeredRow]
  rfl

theorem firstMatch_family0 (x y n : Nibble) :
    firstMatch opcodeMap (formXYN 0x0 x y n) = answeredRow (.ok (decodeFamily0 ⟨0x0, x, y, n⟩)) := by
  have hlast := firstMatch_rowOp 1 0x0 x y n []
  rw [formXYN_eq_wordOf, ← formNNN_eq_wordOf] at hlast
  rw [firstMatch_opcodeMap, show familyRows 0x0 = [rowNNN 2 0x0 0x0E0, rowNNN 3 0x0 0x0EE, rowOp 1 0x0] from rfl,
    formXYN_eq_wordOf, ← formNNN_eq_wordOf]
  simp only [firstMatch_rowNNN, hlast, decodeFamily0, apply_ite Except.ok, apply_ite answeredRow]
  rfl

theorem firstMatch_family8 (x y n : Nibble) :
    firstMatch opcodeMap (formXYN 0x8 x y n) = answeredRow (decodeFamily8 ⟨0x8, x, y, n⟩) := by
  rw [firstMatch_opcodeMap, show familyRows 0x8 = [rowXY 11 0x8 0x0, rowXY 12 0x8 0x1, rowXY 13 0x8 0x2, rowXY 14 0x8 0x3,
    rowXY 15 0x8 0x4, rowXY 16 0x8 0x5, rowXY 17 0x8 0x6, rowXY 18 0x8 0x7, rowXY 19 0x8 0xE] from rfl]
  simp only [firstMatch_rowXY, decodeFamily8, apply_ite answeredRow]
  rfl

theorem firstMatch_familyE (x y n : Nibble) :
    firstMatch opcodeMap (formXYN 0xE x y n) = answeredRow (decodeFamilyE ⟨0xE, x, y, n⟩) := by
  rw [firstMatch_opcodeMap, show familyRows 0xE = [rowX 25 0xE 0x9E, rowX 26 0xE 0xA1] from rfl, formXYN_eq_wordOf,
    ← formXKK_eq_wordOf]
  simp only [firstMatch_rowX, decodeFamilyE, apply_ite answeredRow]
  rfl

theorem firstMatch_familyF (x y n : Nibble) :
    firstMatch opcodeMap (formXYN 0xF x y n) = answeredRow (decodeFamilyF ⟨0xF, x, y, n⟩) := by
  rw [firstMatch_opcodeMap, show familyRows 0xF = [rowX 27 0xF 0x07, rowX 28 0xF 0x0A, rowX 29 0xF 0x15, rowX 30 0xF 0x18,
    rowX 31 0xF 0x1E, rowX 32 0xF 0x29, rowX 33 0xF 0x33, rowX 34 0xF 0x55, rowX 35 0xF 0x65] from rfl, formXYN_eq_wordOf,
    ← formXKK_eq_wordOf]
  simp only [firstMatch_rowX, decodeFamilyF, apply_ite answeredRow]
  rfl

theorem firstMatch_eq_answeredRow (f : Fields) : firstMatch opcodeMap (wordOf f) = answeredRow (decodeFields f) := by
  obtain ⟨op, x, y, n⟩ := f
  rcases nibble_cases op with rfl | rfl | rfl | rfl | rfl | rfl | rfl | rfl | rfl | rfl | rfl | rfl | rfl | rfl | rfl | rfl
  · exact firstMatch_family0 x y n
  · exact firstMatch_of_rowOp (op := 0x1) (number := 4) rfl x y n
  · exact firstMatch_of_rowOp (op := 0x2) (number := 5) rfl x y n
  · exact firstMatch_of_rowOp (op := 0x3) (number := 6) rfl x y n
  · exact firstMatch_of_rowOp (op := 0x4) (number := 7) rfl x y n
  · exact firstMatch_of_rowXY0 (op := 0x5) (i := .seReg x y) rfl x y n
  · exact firstMatch_of_rowOp (op := 0x6) (number := 9) rfl x y n
  · exact firstMatch_of_rowOp (op := 0x7) (number := 10) rfl x y n
  · exact firstMatch_family8 x y n
  · exact firstMatch_of_rowXY0 (op := 0x9) (i := .sneReg x y) rfl x y n
  · exact firstMatch_of_rowOp (op := 0xA) (number := 21) rfl x y n
  · exact firstMatch_of_rowOp (op := 0xB) (number := 22) rfl x y n
  · exact firstMatch_of_rowOp (op := 0xC) (number := 23) rfl x y n
  · exact firstMatch_of_rowOp (op := 0xD) (number := 24) rfl x y n
  · exact firstMatch_familyE x y n
  · exact firstMatch_familyF x y n

/-- Settles O4: family by family, the conditions of the dispatch are the masks and matches of the family's rows, in order. -/
theorem decodeFollowsTheOpcodeMap : Obligations.DecodeFollowsTheOpcodeMap := by
  intro w
  have hrow : firstMatch opcodeMap w = answeredRow (decodeWord w) := by
    rw [decodeWord, ← firstMatch_eq_answeredRow, wordOf_fieldsOf]
  cases hd : decodeWord w with
  | ok i => rwa [hd] at hrow
  | error e =>
    rw [hd] at hrow
    exact ⟨Option.map_eq_none_iff.mp hrow, (decodeWord_eq_error.mp hd).2⟩

end Sys2Proof
end

section
/-! PROOF. The instructions with more than one outcome, one lemma each that lists the outcomes with their conditions: the key
skips and the key wait (spec/44_keypad_and_timers.md R180, R181, R183), the blitter's slice check (spec/43_display.md R171), the
register load (spec/42_index_and_memory.md R165). The statements about each of them follow at once. -/

namespace Sys2Proof.Machine

/-! ### SKP and SKNP -/

/-- SKP and SKNP skip by the state of the key Vx names, and are the OutOfBounds error where it names none (R180, R181, D19). -/
theorem execSkp_execSknp_cases (x : Reg) (s : State) :
    (∃ h : (s.reg x).toNat < 16, execSkp x s = .next (s.skipIf s.key[(s.reg x).toNat]) ∧
      execSknp x s = .next (s.skipIf (!s.key[(s.reg x).toNat]))) ∨
    (15 < (s.reg x).toNat ∧ execSkp x s = .fault (.outOfBounds s) ∧ execSknp x s = .fault (.outOfBounds s)) := by
  by_cases h : (s.reg x).toNat < 16
  · exact .inl ⟨h, by rw [execSkp, keyState_inside s h], by rw [execSknp, keyState_inside s h]⟩
  · have hnone := keyState_outside s (Nat.le_of_not_lt h)
    exact .inr ⟨by omega, by rw [execSkp, hnone]; rfl, by rw [execSknp, hnone]; rfl⟩

/-- Settles O52: below 16 both are skips on the key's state, above 15 both are the error. -/
theorem skipsOnKey : Obligations.SkipsOnKey := by
  intro x s
  obtain ⟨hlt, hskp, hsknp⟩ | ⟨hgt, hskp, hsknp⟩ := execSkp_execSknp_cases x s
  · refine ⟨fun _ => ⟨?_, ?_⟩, fun h => absurd h (by omega)⟩
    · exact skips_of_exec_eq_skipIf hskp Iff.rfl
    · exact skips_of_exec_eq_skipIf hsknp (by simp)
  · exact ⟨fun h => absurd h (by omega), fun _ => ⟨hskp, hsknp⟩⟩

/-! ### LD Vx,K -/

/-- LD Vx,K takes the key the scan finds, and rewinds the pc where it finds none (R183). -/
theorem execLdVxK_cases (x : Reg) (s : State) :
    (∃ k, firstKey s = some k ∧ execLdVxK x s = .next (s.setReg x (BitVec.ofNat 8 k))) ∨
    (firstKey s = none ∧ execLdVxK x s = .next s.rewindPc) := by
  rw [execLdVxK]
  cases firstKey s with
  | none => exact .inr ⟨rfl, rfl⟩
  | some k => exact .inl ⟨k, rfl, rfl⟩

/-- With every key up the scan finds none. -/
theorem firstKey_of_all_up {s : State} (h : ∀ k : Nat, k < 16 → keyState s k = some false) : firstKey s = none :=
  firstKey_eq_none.mpr fun k hk => by simp [h k hk]

/-- Settles O54: the lowest key down is what the scan finds, and with none down the pc is rewound. -/
theorem keyWaitTakesTheLowestKey : Obligations.KeyWaitTakesTheLowestKey := by
  refine fun x s => ⟨fun k hk hdown hup => ?_, fun hup => ?_⟩
  · have hfirst : firstKey s = some k := firstKey_eq_some.mpr ⟨hdown, fun j hj => by simp [hup j hj]⟩
    obtain ⟨k', hk', he⟩ | ⟨hnone, -⟩ := execLdVxK_cases x s
    · obtain rfl : k = k' := by simpa [hfirst] using hk'
      refine writesOneReg_of_exec_eq_setReg (·.toNat = k) he ?_
      rw [BitVec.toNat_ofNat]
      omega
    · simp [hfirst] at hnone
  · obtain ⟨k, hk, -⟩ | ⟨-, he⟩ := execLdVxK_cases x s
    · simp [firstKey_of_all_up hup] at hk
    · exact ⟨s.rewindPc, he, rfl, onlyChanges_setPc s _⟩

/-! ### DRW -/

/-- The framebuffer and the collision flag after the sprite of n bytes at I is drawn at (Vx, Vy) (R171). -/
def drawn (s : State) (x y : Reg) (n : Nat) : Drawing :=
  drawRows (s.reg x) (s.reg y) (Memory.readBytes s.mem s.i.toNat n) 0 (s.fb, false)

/-- What DRW leaves when its slice lies in memory: the sprite drawn and the collision flag in VF (R171). -/
def afterDrw (s : State) (x y : Reg) (n : Nibble) : State :=
  (s.setFb (drawn s x y n.toNat).1).setReg vF (flagByte (drawn s x y n.toNat).2)

theorem afterDrw_reg_vF (s : State) (x y : Reg) (n : Nibble) :
    (afterDrw s x y n).reg vF = flagByte (drawn s x y n.toNat).2 := State.reg_setReg_same ..

/-- DRW draws where its slice lies in memory, and is the OutOfBounds error where it does not (R66, R171, D17). -/
theorem execDrw_cases (x y : Reg) (n : Nibble) (s : State) :
    (s.i.toNat + n.toNat ≤ 4096 ∧ execDrw x y n s = .next (afterDrw s x y n)) ∨
    (4096 < s.i.toNat + n.toNat ∧ execDrw x y n s = .fault (.outOfBounds s)) := by
  by_cases h : s.i.toNat + n.toNat ≤ 4096
  · exact .inl ⟨h, by rw [execDrw, effAddr, Nat.add_zero, readSprite_inside s h]; rfl⟩
  · have hlt := Nat.lt_of_not_le h
    exact .inr ⟨hlt, by rw [execDrw, effAddr, Nat.add_zero, readSprite_outside s hlt]; rfl⟩

/-- Settles O50: past the end of memory the slice check fails before anything is written. -/
theorem drawPastMemoryRaises : Obligations.DrawPastMemoryRaises := by
  intro x y n s h
  obtain ⟨hle, -⟩ | ⟨-, he⟩ := execDrw_cases x y n s
  · omega
  · exact he

/-! ### LD Vx,[I] -/

/-- LD Vx,[I] completes where its last byte lies in memory, and is the OutOfBounds error where memory ends before it, with the
registers whose byte lies in memory loaded (R165, R208). -/
theorem execLdVxMem_cases (x : Reg) (s : State) :
    (s.i.toNat + x.toNat < 4096 ∧ ∃ t, Loaded s 0 (x.toNat + 1) t ∧ execLdVxMem x s = .next t) ∨
    (4096 ≤ s.i.toNat + x.toNat ∧ ∃ t, Loaded s 0 (4096 - s.i.toNat) t ∧ execLdVxMem x s = .fault (.outOfBounds t)) := by
  have hx := x.isLt
  by_cases h : s.i.toNat + x.toNat < 4096
  · exact .inl ⟨h, loadRegs_inside (x.toNat + 1) 0 s (by omega) (fun j hj => by omega)⟩
  · refine .inr ⟨by omega, ?_⟩
    have hload := loadRegs_outside (4096 - s.i.toNat) (x.toNat - (4096 - s.i.toNat)) 0 s (by omega) (fun j hj => by omega)
      (by omega)
    rwa [show 4096 - s.i.toNat + (x.toNat - (4096 - s.i.toNat) + 1) = x.toNat + 1 by omega] at hload

theorem onlyChanges_setRegs (s : State) (v : Vector Byte 16) : OnlyChanges [.regs] s (setRegs s v) :=
  ⟨fun p hp => by cases p <;> simp_all [Part.same, setRegs], rfl, rfl, rfl⟩

theorem onlyChanges_of_loaded {s t : State} {k m : Nat} (h : Loaded s k m t) : OnlyChanges [.regs] s t :=
  h.1 ▸ onlyChanges_setRegs s t.v

/-- Settles O46: with the last byte in memory, the loop runs to its end. -/
theorem loadFillsRegistersInclusive : Obligations.LoadFillsRegistersInclusive := by
  intro x s h
  obtain ⟨-, t, ht, hexec⟩ | ⟨hout, -⟩ := execLdVxMem_cases x s
  · refine ⟨t, hexec, fun r => ?_, onlyChanges_of_loaded ht⟩
    rw [ht.2 r]
    exact if_congr (by omega) rfl rfl
  · omega

/-- Settles O47: with the last byte beyond memory, the loop loads the registers whose byte lies in memory and stops. -/
theorem loadStopsAtFirstBadByte : Obligations.LoadStopsAtFirstBadByte := by
  intro x s h
  obtain ⟨hin, -⟩ | ⟨-, t, ht, hexec⟩ := execLdVxMem_cases x s
  · omega
  · refine ⟨t, hexec, fun r => ?_, onlyChanges_of_loaded ht⟩
    rw [ht.2 r]
    exact if_congr (by omega) rfl rfl

end Sys2Proof.Machine
end

section
/-! PROOF. Who writes what (spec/10_state.md R20 to R36): one case analysis over the instructions, from which the statements on VF
and, later, those on memory, the timers and the pc are read off. -/

namespace Sys2Proof.Machine

/-! ### The writers of each part (R20 to R36) -/

/-- From s to t each part is as before unless the instruction is one of its writers. -/
def PartsHaveWriters (i : Instr) (s t : State) : Prop :=
  (∀ r : Reg, t.reg r = s.reg r ∨ MayWriteReg r i) ∧
  (t.pc = s.pc ∨ i = .ret ∨ (∃ n, i = .jp n) ∨ (∃ n, i = .call n) ∨ (∃ n, i = .jpV0 n) ∨ (∃ x k, i = .seByte x k) ∨
    (∃ x k, i = .sneByte x k) ∨ (∃ x y, i = .seReg x y) ∨ (∃ x y, i = .sneReg x y) ∨ (∃ x, i = .skp x) ∨
    (∃ x, i = .sknp x) ∨ (∃ x, i = .ldVxK x)) ∧
  (t.i = s.i ∨ (∃ n, i = .ldI n) ∨ (∃ x, i = .addI x) ∨ (∃ x, i = .ldF x)) ∧
  (t.dt = s.dt ∨ ∃ x, i = .ldDtVx x) ∧
  (t.st = s.st ∨ ∃ x, i = .ldStVx x) ∧
  ((t.sp = s.sp ∧ t.stack = s.stack) ∨ i = .ret ∨ ∃ n, i = .call n) ∧
  (t.mem = s.mem ∨ (∃ x, i = .ldB x) ∨ ∃ x, i = .ldMemVx x) ∧
  (t.fb = s.fb ∨ i = .cls ∨ ∃ x y n, i = .drw x y n) ∧
  (t.draws = s.draws ∨ ∃ x k, i = .rnd x k) ∧
  t.key = s.key ∧ t.trace = s.trace ∧ t.phase = s.phase ∧ t.host = s.host

theorem partsHaveWriters_refl (i : Instr) (s : State) : PartsHaveWriters i s s := by simp [PartsHaveWriters]

theorem partsHaveWriters_setReg {i : Instr} {s t : State} {x : Reg} (h : PartsHaveWriters i s t) (hx : MayWriteReg x i) (b : Byte) :
    PartsHaveWriters i s (t.setReg x b) := by
  obtain ⟨hreg, hrest⟩ := h
  refine ⟨fun r => ?_, hrest⟩
  by_cases hr : x = r
  · exact .inr (hr ▸ hx)
  · rw [State.reg_setReg_other _ hr]
    exact hreg r

theorem partsHaveWriters_setMem {i : Instr} {s t : State} (h : PartsHaveWriters i s t)
    (hi : (∃ x, i = .ldB x) ∨ ∃ x, i = .ldMemVx x) (m : Memory) : PartsHaveWriters i s (t.setMem m) := by
  obtain ⟨hreg, hpc, hi', hdt, hst, hstack, -, hrest⟩ := h
  exact ⟨hreg, hpc, hi', hdt, hst, hstack, .inr hi, hrest⟩

theorem partsHaveWriters_memWrite {i : Instr} {s t u : State} {a : Nat} {b : Byte} (hi : (∃ x, i = .ldB x) ∨ ∃ x, i = .ldMemVx x)
    (h : PartsHaveWriters i s t) (hw : memWrite a b t = .next u) : PartsHaveWriters i s u := by
  rw [(memWrite_eq_next hw).1]
  exact partsHaveWriters_setMem h hi _

theorem partsHaveWriters_of_loaded {x : Reg} {s t : State} {m : Nat} (hm : m ≤ x.toNat + 1) (h : Loaded s 0 m t) :
    PartsHaveWriters (.ldVxMem x) s t := by
  obtain ⟨ht, hreg⟩ := h
  refine ⟨fun r => ?_, by rw [ht]; simp [setRegs]⟩
  by_cases hr : r.toNat < m
  · exact .inr (show r.toNat ≤ x.toNat by omega)
  · exact .inl (by rw [hreg, if_neg (by omega)])

/-- Every instruction is made of updates it is a writer for; the cases with several outcomes go by those, the loops by what each of
their writes keeps. -/
theorem exec_partsHaveWriters (i : Instr) (s : State) : Leaves (PartsHaveWriters i s) (exec i s) := by
  have hrefl := partsHaveWriters_refl i s
  cases i with
  | sys => exact hrefl
  | ldByte | addByte | ldReg | orReg | andReg | xorReg | ldVxDt => exact partsHaveWriters_setReg hrefl rfl _
  | addReg => exact partsHaveWriters_setReg (partsHaveWriters_setReg hrefl (.inl rfl) _) (.inr rfl) _
  | subReg | shr | subnReg | shl => exact partsHaveWriters_setReg (partsHaveWriters_setReg hrefl (.inr rfl) _) (.inl rfl) _
  | cls | jp | jpV0 | ldI | addI | ldF | ldDtVx | ldStVx =>
    simp [exec, execCls, execJp, execJpV0, execLdI, execAddI, execLdF, execLdDtVx, execLdStVx, PartsHaveWriters]
  | seByte | sneByte | seReg | sneReg =>
    simp [exec, execSeByte, execSneByte, execSeReg, execSneReg, PartsHaveWriters, State.skipIf_eq_setPc]
  | rnd x kk =>
    obtain ⟨hreg, -⟩ := partsHaveWriters_setReg hrefl (show MayWriteReg x (.rnd x kk) from rfl) (randByte s &&& kk)
    exact ⟨hreg, by simp⟩
  | ret =>
    obtain ⟨_, he⟩ | ⟨-, he⟩ := execRet_cases s <;> rw [exec, he]
    · simp [PartsHaveWriters]
    · exact hrefl
  | call nnn =>
    obtain ⟨_, he⟩ | ⟨-, he⟩ := execCall_cases nnn s <;> rw [exec, he]
    · simp [PartsHaveWriters]
    · exact hrefl
  | drw x y n =>
    obtain ⟨-, he⟩ | ⟨-, he⟩ := execDrw_cases x y n s <;> rw [exec, he]
    · have hfb (f : Framebuffer) : PartsHaveWriters (.drw x y n) s (s.setFb f) := by simp [PartsHaveWriters]
      exact partsHaveWriters_setReg (hfb _) (show vF = vF from rfl) _
    · exact hrefl
  | skp x =>
    obtain ⟨_, he, -⟩ | ⟨-, he, -⟩ := execSkp_execSknp_cases x s <;> rw [exec, he]
    · simp [PartsHaveWriters, State.skipIf_eq_setPc]
    · exact hrefl
  | sknp x =>
    obtain ⟨_, -, he⟩ | ⟨-, -, he⟩ := execSkp_execSknp_cases x s <;> rw [exec, he]
    · simp [PartsHaveWriters, State.skipIf_eq_setPc]
    · exact hrefl
  | ldVxK x =>
    obtain ⟨k, -, he⟩ | ⟨-, he⟩ := execLdVxK_cases x s <;> rw [exec, he]
    · exact partsHaveWriters_setReg hrefl rfl _
    · simp [PartsHaveWriters]
  | ldB x => exact leaves_execLdB (fun _ _ _ _ => partsHaveWriters_memWrite (.inl ⟨x, rfl⟩)) x hrefl
  | ldMemVx x => exact leaves_storeRegs (fun _ _ _ _ => partsHaveWriters_memWrite (.inr ⟨x, rfl⟩)) _ _ hrefl
  | ldVxMem x =>
    obtain ⟨-, t, ht, he⟩ | ⟨h, t, ht, he⟩ := execLdVxMem_cases x s <;> rw [exec, he]
    · exact partsHaveWriters_of_loaded (by omega) ht
    · exact partsHaveWriters_of_loaded (by omega) ht

/-- Settles O22: each operation an instruction calls writes parts it is a writer of. -/
theorem eachPartHasItsWriters : Obligations.EachPartHasItsWriters := exec_partsHaveWriters

/-! ### VF (R21) -/

/-- An instruction that may write VF has it as a flag or names it as its destination. -/
theorem writesFlag_or_namesVf {i : Instr} (h : MayWriteReg vF i) : WritesFlag i ∨ NamesVfAsDestination i := by
  cases i with
  | addReg | subReg | shr | subnReg | shl | drw => exact .inl trivial
  | ldByte | addByte | ldReg | orReg | andReg | xorReg | rnd | ldVxDt | ldVxK => exact .inr (Eq.symm h)
  | ldVxMem x =>
    have hle : 15 ≤ x.toNat := h
    have hlt := x.isLt
    exact .inr (BitVec.eq_of_toNat_eq (show x.toNat = 15 by omega))
  | _ => exact h.elim

/-- Settles O20: VF is a register, and who may write it is one of the clauses on registers. -/
theorem onlyFlagWritersTouchVf : Obligations.OnlyFlagWritersTouchVf := by
  intro i s hflag hname
  refine leaves_imp (exec_partsHaveWriters i s) fun t ⟨hreg, _⟩ => (hreg vF).resolve_right fun hw => ?_
  exact (writesFlag_or_namesVf hw).elim hflag hname

end Sys2Proof.Machine
end

section
/-! PROOF. What an instruction can raise (spec/60_exceptions.md R200 to R209) and where the pc stands then (R207). -/

namespace Sys2Proof.Machine

/-! ### The errors of an instruction (R200 to R209) -/

/-- The answer is no refusal, and no error but the one kind. -/
def RaisesOnly (e : ErrorKind) : Result → Prop
  | .next _ => True
  | .fault f => f.kind = e
  | .refused _ => False

theorem raisesOnly_raise (e : ErrorKind) (s : State) : RaisesOnly e (raise e s) := by
  obtain ⟨f, hf, hk, -⟩ := raise_eq_fault e s
  rw [hf]
  exact hk

theorem raisesOnly_andThen {e : ErrorKind} {r : Result} {k : State → Result} (hr : RaisesOnly e r) (hk : ∀ s, RaisesOnly e (k s)) :
    RaisesOnly e (andThen r k) := by
  cases r with
  | next s => exact hk s
  | fault f => exact hr
  | refused q => exact hr

theorem raisesOnly_memWrite (a : Nat) (b : Byte) (s : State) : RaisesOnly .outOfBounds (memWrite a b s) := by
  rw [memWrite]
  split
  · exact raisesOnly_raise _ s
  · trivial

theorem raisesOnly_storeRegs (n : Nat) : ∀ (k : Nat) (s : State), RaisesOnly .outOfBounds (storeRegs n k s) := by
  induction n with
  | zero => exact fun k s => trivial
  | succ n ih => exact fun k s => raisesOnly_andThen (raisesOnly_memWrite ..) (ih (k + 1))

theorem raisesOnly_execLdVxMem (x : Reg) (s : State) : RaisesOnly .outOfBounds (execLdVxMem x s) := by
  obtain ⟨-, t, -, he⟩ | ⟨-, t, -, he⟩ := execLdVxMem_cases x s <;> rw [he]
  · trivial
  · rfl

theorem raisesOnly_execLdB (x : Reg) (s : State) : RaisesOnly .outOfBounds (execLdB x s) :=
  raisesOnly_andThen (raisesOnly_memWrite ..) fun _ => raisesOnly_andThen (raisesOnly_memWrite ..) fun _ => raisesOnly_memWrite ..

theorem raisesOnly_execDrw (x y : Reg) (n : Nibble) (s : State) : RaisesOnly .outOfBounds (execDrw x y n s) := by
  obtain ⟨-, he⟩ | ⟨-, he⟩ := execDrw_cases x y n s <;> rw [he]
  · trivial
  · rfl

theorem raisesOnly_execSkp (x : Reg) (s : State) : RaisesOnly .outOfBounds (execSkp x s) := by
  obtain ⟨_, he, -⟩ | ⟨-, he, -⟩ := execSkp_execSknp_cases x s <;> rw [he]
  · trivial
  · rfl

theorem raisesOnly_execSknp (x : Reg) (s : State) : RaisesOnly .outOfBounds (execSknp x s) := by
  obtain ⟨_, -, he⟩ | ⟨-, -, he⟩ := execSkp_execSknp_cases x s <;> rw [he]
  · trivial
  · rfl

/-- The instructions that may return OutOfBounds (R204). -/
def MayRaiseOutOfBounds (i : Instr) : Prop :=
  (∃ x, i = .ldB x) ∨ (∃ x, i = .ldMemVx x) ∨ (∃ x, i = .ldVxMem x) ∨ (∃ x y n, i = .drw x y n) ∨ (∃ x, i = .skp x) ∨
    (∃ x, i = .sknp x)

/-- What R200 to R209 say of the answer r of instruction i in state s. -/
def RaisesItsOneKind (i : Instr) (s : State) (r : Result) : Prop :=
  match r with
  | .next _ => True
  | .refused _ => False
  | .fault f =>
    (f.kind = .invalidOpcode ∧ ∃ nnn, i = .sys nnn) ∨
    (f.kind = .stackOverflow ∧ s.sp.val = 16 ∧ ∃ nnn, i = .call nnn) ∨
    (f.kind = .emptyStack ∧ s.sp.val = 0 ∧ i = .ret) ∨
    (f.kind = .outOfBounds ∧ MayRaiseOutOfBounds i)

theorem raisesItsOneKind_of_raisesOnly {i : Instr} {s : State} {r : Result} (hi : MayRaiseOutOfBounds i)
    (h : RaisesOnly .outOfBounds r) : RaisesItsOneKind i s r := by
  cases r with
  | next => trivial
  | refused => exact h
  | fault f => exact .inr (.inr (.inr ⟨h, hi⟩))

theorem exec_raisesItsOneKind (i : Instr) (s : State) : RaisesItsOneKind i s (exec i s) := by
  cases i with
  | sys nnn => exact .inl ⟨rfl, nnn, rfl⟩
  | call nnn =>
    obtain ⟨h, he⟩ | ⟨h, he⟩ := execCall_cases nnn s <;> rw [exec, he]
    · trivial
    · exact .inr (.inl ⟨rfl, h, nnn, rfl⟩)
  | ret =>
    obtain ⟨h, he⟩ | ⟨h, he⟩ := execRet_cases s <;> rw [exec, he]
    · trivial
    · exact .inr (.inr (.inl ⟨rfl, h, rfl⟩))
  | ldB x => exact raisesItsOneKind_of_raisesOnly (by simp [MayRaiseOutOfBounds]) (raisesOnly_execLdB x s)
  | ldMemVx x => exact raisesItsOneKind_of_raisesOnly (by simp [MayRaiseOutOfBounds]) (raisesOnly_storeRegs _ _ s)
  | ldVxMem x => exact raisesItsOneKind_of_raisesOnly (by simp [MayRaiseOutOfBounds]) (raisesOnly_execLdVxMem x s)
  | drw x y n => exact raisesItsOneKind_of_raisesOnly (by simp [MayRaiseOutOfBounds]) (raisesOnly_execDrw x y n s)
  | skp x => exact raisesItsOneKind_of_raisesOnly (by simp [MayRaiseOutOfBounds]) (raisesOnly_execSkp x s)
  | sknp x => exact raisesItsOneKind_of_raisesOnly (by simp [MayRaiseOutOfBounds]) (raisesOnly_execSknp x s)
  | ldVxK x =>
    obtain ⟨k, -, he⟩ | ⟨-, he⟩ := execLdVxK_cases x s <;> rw [exec, he] <;> trivial
  | _ => trivial

/-- Settles O12: each operation that can fail raises one kind, and only the instructions that call it can return it. -/
theorem eachInstructionRaisesItsOneKind : Obligations.EachInstructionRaisesItsOneKind := exec_raisesItsOneKind

/-! ### The pc an error leaves (R207) -/

/-- Of the instructions that can return an error, those that write the pc return it before they write. -/
theorem pc_of_exec_fault {i : Instr} {s : State} {f : Fault} (h : exec i s = .fault f) : f.after.pc = s.pc := by
  have hkind := exec_raisesItsOneKind i s
  have hparts := exec_partsHaveWriters i s
  rw [h] at hkind hparts
  obtain ⟨-, hpc, -⟩ := hparts
  obtain ⟨-, nnn, rfl⟩ | ⟨-, -, nnn, rfl⟩ | ⟨-, -, rfl⟩ |
    ⟨-, ⟨x, rfl⟩ | ⟨x, rfl⟩ | ⟨x, rfl⟩ | ⟨x, y, n, rfl⟩ | ⟨x, rfl⟩ | ⟨x, rfl⟩⟩ := hkind
  · simpa using hpc
  · obtain ⟨_, he⟩ | ⟨-, he⟩ := execCall_cases nnn s <;> cases he.symm.trans h
    rfl
  · obtain ⟨_, he⟩ | ⟨-, he⟩ := execRet_cases s <;> cases he.symm.trans h
    rfl
  iterate 4 · simpa using hpc
  · obtain ⟨_, he, -⟩ | ⟨-, he, -⟩ := execSkp_execSknp_cases x s <;> cases he.symm.trans h
    rfl
  · obtain ⟨_, -, he⟩ | ⟨-, -, he⟩ := execSkp_execSknp_cases x s <;> cases he.symm.trans h
    rfl

end Sys2Proof.Machine
end

section
/-! PROOF. What no instruction reads (spec/10_state.md R26, R33, R34). A change of the state that leaves every part the
instructions read, and that commutes with every write they make, commutes with each of them; the sound timer, the trace descriptor
and the Host's parts are changed so. -/

namespace Sys2Proof.Machine

/-- f changes nothing an instruction reads, and commutes with each write an instruction other than LD ST,Vx makes. -/
structure Unread (f : State → State) : Prop where
  reg : ∀ s x, (f s).reg x = s.reg x
  pc : ∀ s, (f s).pc = s.pc
  i : ∀ s, (f s).i = s.i
  dt : ∀ s, (f s).dt = s.dt
  sp : ∀ s, (f s).sp = s.sp
  stack : ∀ s, (f s).stack = s.stack
  mem : ∀ s, (f s).mem = s.mem
  fb : ∀ s, (f s).fb = s.fb
  key : ∀ s, (f s).key = s.key
  draws : ∀ s, (f s).draws = s.draws
  setReg : ∀ s x b, (f s).setReg x b = f (s.setReg x b)
  setPc : ∀ s w, (f s).setPc w = f (s.setPc w)
  setI : ∀ s w, (f s).setI w = f (s.setI w)
  setDt : ∀ s b, (f s).setDt b = f (s.setDt b)
  setStack : ∀ s p k, (f s).setStack p k = f (s.setStack p k)
  setMem : ∀ s m, (f s).setMem m = f (s.setMem m)
  setFb : ∀ s g, (f s).setFb g = f (s.setFb g)
  setDraws : ∀ s n, (f s).setDraws n = f (s.setDraws n)

theorem unread_setSt (b : Byte) : Unread (fun s => s.setSt b) := by
  constructor <;> intros <;> rfl

theorem unread_setHost (tr : Option Instr) (p : Phase) (h : List HostStep) :
    Unread (fun s => ((s.setTrace tr).setPhase p).setHost h) := by
  constructor <;> intros <;> rfl

/-! ### `mapLeft` on the shapes of an answer -/

@[simp] theorem mapLeft_next (f : State → State) (t : State) : mapLeft f (.next t) = .next (f t) := rfl

@[simp] theorem mapLeft_raise (f : State → State) (e : ErrorKind) (s : State) : mapLeft f (raise e s) = raise e (f s) := by
  cases e <;> rfl

theorem mapLeft_andThen {f : State → State} {r r' : Result} {k k' : State → Result} (hr : r' = mapLeft f r)
    (hk : ∀ s, k' (f s) = mapLeft f (k s)) : andThen r' k' = mapLeft f (andThen r k) := by
  subst hr
  cases r with
  | next s => exact hk s
  | fault g => cases g <;> rfl
  | refused q => rfl

/-! ### The operations -/

section
variable {f : State → State} (hf : Unread f)
include hf

theorem Unread.skipIf (s : State) (c : Bool) : (f s).skipIf c = f (s.skipIf c) := by
  rw [State.skipIf_eq_setPc, State.skipIf_eq_setPc, hf.pc, hf.setPc]

theorem Unread.rewindPc (s : State) : (f s).rewindPc = f s.rewindPc := by
  rw [State.rewindPc, State.rewindPc, hf.pc, hf.setPc]

theorem Unread.keyState (s : State) (k : Nat) : keyState (f s) k = keyState s k := by
  rw [Machine.keyState, Machine.keyState, hf.key]

theorem Unread.firstKey (s : State) : firstKey (f s) = firstKey s := by
  simp only [Machine.firstKey, hf.keyState]

theorem Unread.effAddr (s : State) (k : Nat) : effAddr (f s) k = effAddr s k := by
  rw [Machine.effAddr, Machine.effAddr, hf.i]

theorem Unread.readSprite (s : State) (a n : Nat) : readSprite (f s) a n = readSprite s a n := by
  rw [Machine.readSprite, Machine.readSprite, hf.mem]

theorem Unread.memRead (s : State) (a : Nat) : memRead (f s) a = memRead s a := by
  rw [Machine.memRead, Machine.memRead, hf.mem]

theorem Unread.randByte (s : State) : randByte (f s) = randByte s := by
  rw [Machine.randByte, Machine.randByte, hf.draws]

theorem Unread.memWrite (a : Nat) (b : Byte) (s : State) : memWrite a b (f s) = mapLeft f (memWrite a b s) := by
  rw [Machine.memWrite, Machine.memWrite]
  split
  · rw [mapLeft_raise]
  · rw [mapLeft_next, hf.mem, hf.setMem]

theorem Unread.storeRegs (n : Nat) : ∀ (k : Nat) (s : State), storeRegs n k (f s) = mapLeft f (storeRegs n k s) := by
  induction n with
  | zero => exact fun k s => rfl
  | succ n ih =>
    intro k s
    refine mapLeft_andThen ?_ (ih (k + 1))
    rw [hf.effAddr, hf.reg, hf.memWrite]

theorem Unread.loadRegs (n : Nat) : ∀ (k : Nat) (s : State), loadRegs n k (f s) = mapLeft f (loadRegs n k s) := by
  induction n with
  | zero => exact fun k s => rfl
  | succ n ih =>
    intro k s
    rw [Machine.loadRegs, Machine.loadRegs, hf.effAddr, hf.memRead]
    cases Machine.memRead s (Machine.effAddr s k) with
    | none => exact (mapLeft_raise ..).symm
    | some b => exact (congrArg _ (hf.setReg ..)).trans (ih ..)

theorem Unread.execLdB (x : Reg) (s : State) : execLdB x (f s) = mapLeft f (execLdB x s) := by
  simp only [Machine.execLdB, hf.reg, hf.effAddr]
  exact mapLeft_andThen (hf.memWrite ..) fun _ => mapLeft_andThen (hf.memWrite ..) fun _ => hf.memWrite ..

theorem Unread.push (a : Word) (s : State) : push a (f s) = mapLeft f (push a s) := by
  simp only [Machine.push, hf.sp, hf.stack, hf.setStack]
  split
  · rfl
  · rw [mapLeft_raise]

theorem Unread.popToPc (s : State) : popToPc (f s) = mapLeft f (popToPc s) := by
  simp only [Machine.popToPc, hf.sp, hf.stack, hf.setStack, hf.setPc]
  split
  · rfl
  · rw [mapLeft_raise]

/-- What f changes, no instruction but LD ST,Vx reads or writes. -/
theorem Unread.exec {i : Instr} (hi : ∀ x, i ≠ .ldStVx x) (s : State) : exec i (f s) = mapLeft f (exec i s) := by
  cases i with
  | sys => rfl
  | ret => exact hf.popToPc s
  | call nnn =>
    simp only [Machine.exec, execCall, hf.pc]
    exact mapLeft_andThen (hf.push ..) fun t => congrArg _ (hf.setPc t _)
  | cls | jp | jpV0 | ldI | addI | ldF =>
    simp [Machine.exec, execCls, execJp, execJpV0, execLdI, execAddI, execLdF, hf.reg, hf.i, hf.setFb, hf.setPc, hf.setI]
  | seByte | sneByte | seReg | sneReg =>
    simp [Machine.exec, execSeByte, execSneByte, execSeReg, execSneReg, hf.reg, hf.skipIf]
  | ldByte | addByte | ldReg | orReg | andReg | xorReg =>
    simp [Machine.exec, execLdByte, execAddByte, execLdReg, execOrReg, execAndReg, execXorReg, hf.reg, hf.setReg]
  | addReg | subReg | shr | subnReg | shl =>
    simp [Machine.exec, execAddReg, execSubReg, execShr, execSubnReg, execShl, State.resultThenFlag, State.flagThenResult, hf.reg,
      hf.setReg]
  | rnd => simp [Machine.exec, execRnd, hf.randByte, hf.draws, hf.setReg, hf.setDraws]
  | drw x y n =>
    simp only [Machine.exec, execDrw, hf.effAddr, hf.readSprite, hf.reg, hf.fb]
    cases Machine.readSprite s (Machine.effAddr s 0) n.toNat with
    | none => exact (mapLeft_raise ..).symm
    | some bytes => simp [hf.setFb, hf.setReg]
  | skp x =>
    simp only [Machine.exec, execSkp, hf.reg, hf.keyState]
    cases Machine.keyState s (s.reg x).toNat with
    | none => exact (mapLeft_raise ..).symm
    | some pressed => exact congrArg _ (hf.skipIf ..)
  | sknp x =>
    simp only [Machine.exec, execSknp, hf.reg, hf.keyState]
    cases Machine.keyState s (s.reg x).toNat with
    | none => exact (mapLeft_raise ..).symm
    | some pressed => exact congrArg _ (hf.skipIf ..)
  | ldVxDt | ldDtVx => simp [Machine.exec, execLdVxDt, execLdDtVx, hf.reg, hf.dt, hf.setReg, hf.setDt]
  | ldVxK x =>
    simp only [Machine.exec, execLdVxK, hf.firstKey]
    cases Machine.firstKey s with
    | none => exact congrArg _ (hf.rewindPc s)
    | some k => exact congrArg _ (hf.setReg ..)
  | ldStVx x => exact absurd rfl (hi x)
  | ldB x => exact hf.execLdB x s
  | ldMemVx x => exact hf.storeRegs _ _ s
  | ldVxMem x => exact hf.loadRegs _ _ s

end

/-- Settles O23: setting ST is such a change. -/
theorem soundTimerIsNeverRead : Obligations.SoundTimerIsNeverRead :=
  fun _ s b hi => (unread_setSt b).exec hi s

/-- Settles O24: setting the trace descriptor, the phase and the Host's list is such a change, and LD ST,Vx
does not read them either. -/
theorem outputsFeedBackIntoNothing : Obligations.OutputsFeedBackIntoNothing := by
  intro i s tr p h
  by_cases hi : ∃ x, i = .ldStVx x
  · obtain ⟨x, rfl⟩ := hi
    rfl
  · exact (unread_setHost tr p h).exec (fun x hx => hi ⟨x, hx⟩) s

end Sys2Proof.Machine
end

section
/-! PROOF. The cycle (spec/40_control_flow.md R120): fetch, advance, dispatch, and what each of them answers when it fails. -/

namespace Sys2Proof.Machine

/-! ### Which transaction a step performs -/

/-- With a cycle invoked, a step is the Host's cycle on the state with the rest of the list. -/
theorem step_of_cycleIsInvoked {s : State} {rest : List HostStep} (h : CycleIsInvoked s rest) :
    step s = hostCycle (s.setHost rest) := by
  obtain ⟨hnil, rfl⟩ | hcons := h
  · rw [step_of_nil hnil, State.setHost, ← hnil]
  · exact step_of_cons hcons

/-- With a cycle next, the machine is booted and a step is the Engine's cycle. -/
theorem step_of_cycleIsNext {s : State} {rest : List HostStep} (h : CycleIsNext s rest) : step s = cycle (s.setHost rest) := by
  obtain ⟨hinv, hphase⟩ := h
  rw [step_of_cycleIsInvoked hinv]
  exact hostCycle_booted hphase

/-! ### The fetch (R65) -/

theorem fetchWord_of_fetchable {s : State} (h : Fetchable s) :
    fetchWord s = some (Memory.read s.mem s.pc.toNat ++ Memory.read s.mem (s.pc.toNat + 1)) := by
  rw [fetchWord_eq]
  exact if_pos h

theorem fetchWord_of_not_fetchable {s : State} (h : ¬ Fetchable s) : fetchWord s = none := by
  rw [fetchWord_eq]
  exact if_neg h

/-- The two bytes at an address decode as the word they are, high byte first (R69). -/
theorem decodeBytes_readBytes_two (m : Memory) (a : Nat) :
    decodeBytes (Memory.readBytes m a 2) = (decodeWord (Memory.read m a ++ Memory.read m (a + 1))).map (·, []) :=
  decodeBytes_cons_cons ..

/-- Within the program region, the pc after a fetch is the address of the instruction plus 2, unreduced. -/
theorem toNat_pc_add_two {s : State} (h : Fetchable s) : (s.pc + 2).toNat = s.pc.toNat + 2 := by
  obtain ⟨-, hend⟩ := h
  unfold progEnd at hend
  rw [BitVec.toNat_add, show (2 : Word).toNat = 2 from rfl]
  omega

/-! ### The cycle -/

theorem cycle_of_decodes {s : State} {i : Instr} (hf : Fetchable s)
    (hd : decodeBytes (Memory.readBytes s.mem s.pc.toNat 2) = .ok (i, [])) :
    cycle s = emitTrace i (exec i (afterFetch s)) := by
  have hw : decodeWord (Memory.read s.mem s.pc.toNat ++ Memory.read s.mem (s.pc.toNat + 1)) = .ok i :=
    decodeBytes_eq_ok_iff.mp hd
  rw [cycle, fetchWord_of_fetchable hf]
  dsimp only [dispatchWord]
  rw [hw]

theorem cycle_of_undecodable {s : State} {e : DecodeError} (hf : Fetchable s)
    (hd : decodeBytes (Memory.readBytes s.mem s.pc.toNat 2) = .error e) :
    cycle s = .fault (.invalidOpcode (afterFetch s)) := by
  rw [decodeBytes_readBytes_two] at hd
  rw [cycle, fetchWord_of_fetchable hf]
  dsimp only [dispatchWord]
  cases hw : decodeWord (Memory.read s.mem s.pc.toNat ++ Memory.read s.mem (s.pc.toNat + 1)) with
  | ok i => rw [hw] at hd; cases hd
  | error e => rfl

/-- Settles O8: the fetch succeeds and the dispatch meets the instruction. -/
theorem stepRunsTheDecodedInstruction : Obligations.StepRunsTheDecodedInstruction := by
  intro s rest i hnext hf hd
  rw [step_of_cycleIsNext hnext]
  exact cycle_of_decodes (s := s.setHost rest) hf hd

/-- Settles O9: the fetch is checked before anything is written. -/
theorem fetchOutsideProgramRegionRaises : Obligations.FetchOutsideProgramRegionRaises := by
  intro s rest hnext hf
  rw [step_of_cycleIsNext hnext, cycle, fetchWord_of_not_fetchable (s := s.setHost rest) hf]
  rfl

/-- Settles O10: the pc is advanced before the dispatch finds no handler, and nothing else is written. -/
theorem undefinedWordRaisesInvalidOpcode : Obligations.UndefinedWordRaisesInvalidOpcode := by
  intro s rest e hnext hf hd
  refine ⟨afterFetch (s.setHost rest), ?_, toNat_pc_add_two hf, fun p hp => ?_, rfl⟩
  · rw [step_of_cycleIsNext hnext]
    exact cycle_of_undecodable (s := s.setHost rest) hf hd
  · cases p <;> simp_all [Part.same, afterFetch]

/-- An error emitted by the cycle of an instruction is the instruction's. -/
theorem emitTrace_eq_fault {i : Instr} {r : Result} {f : Fault} (h : emitTrace i r = .fault f) : r = .fault f := by
  cases r with
  | next s => cases h
  | fault g => exact h
  | refused q => cases h

theorem pc_of_cycle_fault {s : State} {f : Fault} (hf : Fetchable s) (h : cycle s = .fault f) : f.after.pc = s.pc + 2 := by
  rw [cycle, fetchWord_of_fetchable hf] at h
  dsimp only [dispatchWord] at h
  split at h
  · rw [pc_of_exec_fault (emitTrace_eq_fault h)]
    rfl
  · rw [raise_eq_fault_after h]
    rfl

/-- Settles O11: the advance stands, for no instruction that returns an error has written the pc. -/
theorem errorLeavesPcAfterInstruction : Obligations.ErrorLeavesPcAfterInstruction := by
  intro s rest f hnext hf h
  rw [step_of_cycleIsNext hnext] at h
  rw [pc_of_cycle_fault (s := s.setHost rest) hf h]
  exact toNat_pc_add_two hf

/-- Settles O55: the rewind of the key wait undoes the advance of the fetch. -/
theorem keyWaitCycleIsIdle : Obligations.KeyWaitCycleIsIdle := by
  intro s rest x hnext hf hd hup
  obtain ⟨k, hk, -⟩ | ⟨-, he⟩ := execLdVxK_cases x (afterFetch (s.setHost rest))
  · rw [firstKey_of_all_up (s := afterFetch (s.setHost rest)) hup] at hk
    cases hk
  · refine ⟨(afterFetch (s.setHost rest)).rewindPc.setTrace (some (.ldVxK x)), ?_, fun p => ?_⟩
    · rw [step_of_cycleIsNext hnext, cycle_of_decodes (s := s.setHost rest) hf hd, exec, he]
      rfl
    · cases p <;> simp [Part.same, afterFetch]

end Sys2Proof.Machine
end

section
/-! PROOF. Reset and the Host's other transactions (spec/10_state.md R40, R41, spec/70_reset_and_hazards.md R240 to R244,
spec/44_keypad_and_timers.md R186, R187). Each is one equation for the step that performs it. -/

namespace Sys2Proof.Machine

/-! ### Reset -/

/-- Settles O15: at reset no byte is listed. -/
theorem resetMeetsTheInvariant : Obligations.ResetMeetsTheInvariant :=
  ⟨Memory.wf_reset, fun _ hc => absurd hc List.not_mem_nil⟩

/-- Beyond the 80 bytes of the font an unlisted address reads as 0. -/
theorem Memory.unlisted_eq (a : Nat) :
    Memory.unlisted a = if fontBase ≤ a ∧ a < fontBase + 80 then font.getD (a - fontBase) 0 else 0 := by
  rw [Memory.unlisted]
  by_cases hlo : fontBase ≤ a
  · by_cases hhi : a < fontBase + 80
    · rw [if_pos hlo, if_pos ⟨hlo, hhi⟩]
    · rw [if_pos hlo, if_neg (fun h => hhi h.2)]
      exact List.getD_eq_default _ _ (show 80 ≤ a - fontBase by omega)
  · rw [if_neg hlo, if_neg (fun h => hlo h.1)]

/-- Settles O14: every field is read off the reset state, memory as its unlisted contents. -/
theorem resetLeavesTheTabledValues : Obligations.ResetLeavesTheTabledValues := by
  refine ⟨fun r => ?_, rfl, rfl, rfl, rfl, rfl, fun k hk => ?_, fun a _ => Memory.unlisted_eq a, rfl, fun x y hx hy => ?_,
    fun k hk => ?_, rfl, rfl⟩
  · exact Vector.getElem_replicate r.isLt
  · exact Vector.getElem_replicate hk
  · rw [pixelAt_eq_some_pixel _ hx hy]
    exact congrArg some (pixel_replicate_zero _)
  · rw [keyState_inside _ hk]
    exact congrArg some (Vector.getElem_replicate hk)

/-- Settles O16: the step is the reset state with the source's position and the rest of the Host's list put back. -/
theorem hostResetForgetsEverything : Obligations.HostResetForgetsEverything := by
  intro s rest hs
  exact ⟨_, step_of_cons hs, rfl, rfl, rfl, rfl, rfl, rfl, rfl, rfl, rfl, rfl, rfl, rfl, rfl, rfl⟩

/-! ### tick and setKey -/

theorem toNat_countDown (b : Byte) : (countDown b).toNat = b.toNat - 1 := by
  rw [countDown]
  split
  · next h => rw [h]; rfl
  · next h =>
    have hb := b.isLt
    have hne : b.toNat ≠ 0 := fun h0 => h (BitVec.eq_of_toNat_eq h0)
    rw [BitVec.toNat_sub, show (1 : Byte).toNat = 1 from rfl]
    omega

/-- Settles O56: both timers count down, each by its own value. -/
theorem tickCountsBothTimersDown : Obligations.TickCountsBothTimersDown := by
  intro s rest hs
  refine ⟨_, step_of_cons hs, toNat_countDown s.dt, toNat_countDown s.st, fun p hdt hst => ?_, rfl, rfl⟩
  cases p <;> simp_all [Part.same]

/-- Settles O57: the key vector is set at one place, or the index is refused. -/
theorem setKeyChangesOneKey : Obligations.SetKeyChangesOneKey := by
  intro s rest k b hs
  have hstep : step s = hostSetKey k b (s.setHost rest) := step_of_cons hs
  refine ⟨fun hk => ?_, fun hk => ?_⟩
  · refine ⟨(s.setHost rest).setKeys (s.key.set k b hk), ?_, fun j => ?_, fun p hp => ?_, rfl, rfl⟩
    · rw [hstep, hostSetKey, dif_pos hk]
      rfl
    · simp only [keyState, State.setKeys_key, Vector.getElem?_set, eq_comm (a := k)]
    · cases p <;> simp_all [Part.same]
  · rw [hstep, hostSetKey, dif_neg (by omega)]

/-! ### loadProgram -/

/-- A load right after reset copies a fitting image and boots the machine, and is the OutOfMemory error for a longer one; on a
booted machine it is refused (R67, R242, R244, D23). -/
theorem hostLoadProgram_cases (bs : List Byte) (s : State) :
    (s.phase = .fresh ∧ bs.length ≤ progEnd - progBase ∧
      hostLoadProgram bs s = .next ((s.setMem (Memory.writeBytes s.mem progBase bs)).setPhase .loaded)) ∨
    (s.phase = .fresh ∧ progEnd - progBase < bs.length ∧ hostLoadProgram bs s = .fault (.outOfMemory s)) ∨
    (s.phase ≠ .fresh ∧ hostLoadProgram bs s = .refused .loadOutsideBoot) := by
  by_cases hphase : s.phase = .fresh
  · by_cases hlen : bs.length > progCapacity
    · exact .inr (.inl ⟨hphase, hlen, by rw [hostLoadProgram, if_pos hphase, if_pos hlen]; rfl⟩)
    · exact .inl ⟨hphase, Nat.le_of_not_lt hlen, by rw [hostLoadProgram, if_pos hphase, if_neg hlen]⟩
  · exact .inr (.inr ⟨hphase, by rw [hostLoadProgram, if_neg hphase]⟩)

/-- What a load that fits leaves in memory: the image from PROG_BASE on, every other byte as it was. -/
theorem read_loaded_image (m : Memory) (bs : List Byte) :
    (∀ k : Nat, k < bs.length → Memory.read (Memory.writeBytes m progBase bs) (progBase + k) = bs.getD k 0) ∧
    ∀ b : Nat, (b < progBase ∨ progBase + bs.length ≤ b) → Memory.read (Memory.writeBytes m progBase bs) b = Memory.read m b := by
  refine ⟨fun k hk => ?_, fun b hb => ?_⟩
  · rw [Memory.read_writeBytes, dif_pos (by omega), List.getD_eq_getElem _ _ hk]
    simp only [Nat.add_sub_cancel_left]
  · rw [Memory.read_writeBytes, dif_neg (by omega)]

/-- Settles O58: the length and the phase decide which of the three outcomes a load has; a cycle before boot is refused. -/
theorem loadProgramCopiesOrFails : Obligations.LoadProgramCopiesOrFails := by
  refine ⟨fun s rest bs hs => ?_, fun s rest hinv hphase => ?_⟩
  · have hstep : step s = hostLoadProgram bs (s.setHost rest) := step_of_cons hs
    rw [hstep]
    obtain ⟨hfresh, hfits, he⟩ | ⟨hfresh, hlong, he⟩ | ⟨hbooted, he⟩ := hostLoadProgram_cases bs (s.setHost rest)
    · refine ⟨fun _ _ => ?_, fun _ hlong => absurd hlong (Nat.not_lt.mpr hfits), fun h => absurd hfresh h⟩
      obtain ⟨himage, hrest⟩ := read_loaded_image s.mem bs
      refine ⟨_, he, himage, hrest, fun p hp => ?_, rfl, rfl, rfl⟩
      cases p <;> simp_all [Part.same]
    · exact ⟨fun _ hfits => absurd hlong (Nat.not_lt.mpr hfits), fun _ _ => he, fun h => absurd hfresh h⟩
    · exact ⟨fun h => absurd h hbooted, fun h => absurd h hbooted, fun _ => he⟩
  · rw [step_of_cycleIsInvoked hinv]
    exact hostCycle_fresh hphase

end Sys2Proof.Machine
end

section
/-! PROOF. The invariant of memory (spec/20_memory.md R61 to R68) under every step, whether it completes or returns an error.
Memory is written by two instructions, one checked byte at a time, by the Host's load, which checks the length first, and by
reset. -/

namespace Sys2Proof.Machine

/-! ### Instructions -/

theorem inv_of_mem_eq {s t : State} (h : s.Inv) (hm : t.mem = s.mem) : t.Inv := by
  rw [State.Inv, hm]
  exact h

/-- A checked write keeps the invariant (R64). -/
theorem inv_memWrite {s t : State} {a : Nat} {b : Byte} (h : s.Inv) (hw : memWrite a b s = .next t) : t.Inv := by
  obtain ⟨rfl, hlo, hhi⟩ := memWrite_eq_next hw
  exact ⟨Memory.wf_write h.1 a b, Memory.inProgramRegion_write h.2 b hlo hhi⟩

/-- An instruction leaves memory as it is, or writes it by checked writes only. -/
theorem leaves_inv_exec {s : State} (h : s.Inv) (i : Instr) : Leaves State.Inv (exec i s) := by
  by_cases hldB : ∃ x, i = .ldB x
  · obtain ⟨x, rfl⟩ := hldB
    exact leaves_execLdB (fun _ _ _ _ => inv_memWrite) x h
  by_cases hdump : ∃ x, i = .ldMemVx x
  · obtain ⟨x, rfl⟩ := hdump
    exact leaves_storeRegs (fun _ _ _ _ => inv_memWrite) _ _ h
  refine leaves_imp (exec_partsHaveWriters i s) fun t ht => ?_
  obtain ⟨-, -, -, -, -, -, hmem, -⟩ := ht
  exact inv_of_mem_eq h (hmem.resolve_right (not_or.mpr ⟨hldB, hdump⟩))

/-! ### Steps -/

theorem leaves_inv_cycle {s : State} (h : s.Inv) : Leaves State.Inv (cycle s) := by
  rw [cycle]
  cases fetchWord s with
  | none => exact h
  | some w =>
    dsimp only [dispatchWord]
    cases decodeWord w with
    | error e => exact h
    | ok i => exact leaves_andThen_same (leaves_inv_exec (s := afterFetch s) h i) fun _ ht => ht

theorem leaves_inv_hostCycle {s : State} (h : s.Inv) : Leaves State.Inv (hostCycle s) := by
  rw [hostCycle]
  split
  · trivial
  · exact leaves_inv_cycle h

/-- The load stays in the program region, for it checks the whole image before it writes (R67). -/
theorem leaves_inv_hostLoadProgram {s : State} (h : s.Inv) (bs : List Byte) : Leaves State.Inv (hostLoadProgram bs s) := by
  obtain ⟨-, hfits, he⟩ | ⟨-, -, he⟩ | ⟨-, he⟩ := hostLoadProgram_cases bs s <;> rw [he]
  · have hend : progBase + bs.length ≤ progEnd := by
      unfold progEnd progBase at *
      omega
    exact ⟨Memory.wf_writeBytes bs h.1 progBase, Memory.inProgramRegion_writeBytes bs h.2 progBase (Nat.le_refl _) hend⟩
  · exact h
  · trivial

theorem leaves_inv_hostTransaction {s : State} (h : s.Inv) (a : HostStep) : Leaves State.Inv (hostTransaction a s) := by
  cases a with
  | reset => exact resetMeetsTheInvariant
  | loadProgram bs => exact leaves_inv_hostLoadProgram h bs
  | cycle => exact leaves_inv_hostCycle h
  | tick => exact h
  | setKey k b =>
    rw [hostTransaction, hostSetKey]
    split
    · exact h
    · trivial

theorem leaves_inv_step {s : State} (h : s.Inv) : Leaves State.Inv (step s) := by
  cases hs : s.host with
  | nil => rw [step_of_nil hs]; exact leaves_inv_hostCycle h
  | cons a rest => rw [step_of_cons hs]; exact leaves_inv_hostTransaction (s := s.setHost rest) h a

/-- Settles O17: every transaction keeps the invariant, a cycle because each instruction does. -/
theorem stepKeepsTheInvariant : Obligations.StepKeepsTheInvariant := by
  intro s t h hstep
  have hl := leaves_inv_step h
  rwa [hstep] at hl

/-- Settles O18: the writes made before the error kept the invariant. -/
theorem errorsKeepTheInvariant : Obligations.ErrorsKeepTheInvariant := by
  intro s f h hstep
  have hl := leaves_inv_step h
  rwa [hstep] at hl

/-- Under the invariant the reserved low region reads as after reset, the font in its place (R61, R68). -/
theorem read_font {m : Memory} (h : Memory.inProgramRegion m) {k : Nat} (hk : k < 80) :
    Memory.read m (fontBase + k) = font.getD k 0 := by
  have hlow : fontBase + k < progBase := by
    unfold fontBase progBase
    omega
  rw [Memory.read_low h hlow, Memory.unlisted, if_pos (Nat.le_add_right ..), Nat.add_sub_cancel_left]

/-- Settles O19: before and after the step the low region reads as at reset. -/
theorem lowMemoryNeverChanges : Obligations.LowMemoryNeverChanges := by
  intro s t h hstep
  obtain ⟨-, ht⟩ := stepKeepsTheInvariant s t h hstep
  exact ⟨fun a ha => by rw [Memory.read_low ht ha, Memory.read_low h.2 ha], fun k hk => read_font ht hk⟩

end Sys2Proof.Machine
end

section
/-! PROOF. The two timers over every step (spec/44_keypad_and_timers.md R182 to R188). A step that completes is a cycle of the
instruction fetched or one of the Host's four other transactions; the timers' writers among them are few. -/

namespace Sys2Proof.Machine

/-- A cycle that completes ran the instruction its two bytes decode to. -/
theorem exec_of_hostCycle_next {s t : State} (h : hostCycle s = .next t) : s.phase ≠ .fresh ∧ ∃ i u, Fetchable s ∧
    decodeBytes (Memory.readBytes s.mem s.pc.toNat 2) = .ok (i, []) ∧ exec i (afterFetch s) = .next u ∧
    t = u.setTrace (some i) := by
  obtain ⟨hphase, hcycle⟩ := hostCycle_eq_next.mp h
  obtain ⟨w, i, u, hfetch, hdecode, hexec, ht⟩ := cycle_eq_next.mp hcycle
  obtain ⟨hf, hbytes⟩ := decodeBytes_of_fetchWord hfetch hdecode
  exact ⟨hphase, i, u, hf, hbytes, hexec, ht⟩

/-- A step that completes with a cycle invoked runs an instruction, which leaves the next state but for the trace descriptor. -/
theorem nextCycleRuns_of_step_next {s t : State} {rest : List HostStep} (hinv : CycleIsInvoked s rest) (h : step s = .next t) :
    ∃ i u, NextCycleRuns s i ∧ exec i (afterFetch (s.setHost rest)) = .next u ∧ t = u.setTrace (some i) := by
  rw [step_of_cycleIsInvoked hinv] at h
  obtain ⟨hphase, i, u, hf, hbytes, hexec, ht⟩ := exec_of_hostCycle_next h
  exact ⟨i, u, ⟨⟨rest, hinv, hphase⟩, hf, hbytes⟩, hexec, ht⟩

/-- What a step that completes does to the timers: nothing, or it is one of the steps that write them. -/
inductive TimersStep (s t : State) : Prop
  | kept (hdt : t.dt = s.dt) (hst : t.st = s.st)
  | loadDt (x : Reg) (hruns : NextCycleRuns s (.ldDtVx x)) (hdt : t.dt = s.reg x) (hst : t.st = s.st)
  | loadSt (x : Reg) (hruns : NextCycleRuns s (.ldStVx x)) (hdt : t.dt = s.dt) (hst : t.st = s.reg x)
  | tick (rest : List HostStep) (hhost : s.host = .tick :: rest) (hdt : t.dt = countDown s.dt) (hst : t.st = countDown s.st)
  | reset (rest : List HostStep) (hhost : s.host = .reset :: rest) (hdt : t.dt = 0) (hst : t.st = 0)

/-- A cycle writes a timer only if its instruction is that timer's writer. -/
theorem timersStep_of_cycle {s t : State} {rest : List HostStep} (hinv : CycleIsInvoked s rest) (h : step s = .next t) :
    TimersStep s t := by
  obtain ⟨i, u, hruns, hexec, rfl⟩ := nextCycleRuns_of_step_next hinv h
  have hparts := exec_partsHaveWriters i (afterFetch (s.setHost rest))
  rw [hexec] at hparts
  obtain ⟨-, -, -, hdt, hst, -⟩ := hparts
  obtain hdt | ⟨x, rfl⟩ := hdt
  · obtain hst | ⟨x, rfl⟩ := hst
    · exact .kept hdt hst
    · cases hexec
      exact .loadSt x hruns rfl rfl
  · cases hexec
    exact .loadDt x hruns rfl rfl

theorem timersStep_of_step {s t : State} (h : step s = .next t) : TimersStep s t := by
  cases hs : s.host with
  | nil => exact timersStep_of_cycle (.inl ⟨hs, rfl⟩) h
  | cons a rest =>
    have ha : hostTransaction a (s.setHost rest) = .next t := (step_of_cons hs).symm.trans h
    cases a with
    | reset => cases ha; exact .reset rest hs rfl rfl
    | loadProgram bs =>
      obtain ⟨-, -, he⟩ | ⟨-, -, he⟩ | ⟨-, he⟩ := hostLoadProgram_cases bs (s.setHost rest) <;> cases he.symm.trans ha
      exact .kept rfl rfl
    | cycle => exact timersStep_of_cycle (.inr hs) h
    | tick => cases ha; exact .tick rest hs rfl rfl
    | setKey k b =>
      rw [hostTransaction, hostSetKey] at ha
      split at ha <;> cases ha
      exact .kept rfl rfl

/-- Settles O60: of the steps that write DT, all but LD DT,Vx leave it no higher. -/
theorem delayTimerNeverRisesByItself : Obligations.DelayTimerNeverRisesByItself := by
  intro s t h
  cases timersStep_of_step h with
  | kept hdt | loadSt _ _ hdt => exact .inl (by rw [hdt])
  | loadDt x hruns hdt => exact .inr ⟨x, hruns, hdt⟩
  | tick rest _ hdt => exact .inl (by rw [hdt, toNat_countDown]; omega)
  | reset rest _ hdt => exact .inl (by rw [hdt]; exact Nat.zero_le _)

/-! ### The tone (R188) -/

theorem toNat_eq_zero_iff (b : Byte) : b.toNat = 0 ↔ b = 0 :=
  BitVec.toNat_inj (y := 0#8)

/-- The tone is on exactly while ST is not 0. -/
theorem tone_eq_true (s : State) : tone s = true ↔ s.st.toNat ≠ 0 := by
  rw [tone, decide_eq_true_iff, ne_eq, ne_eq, toNat_eq_zero_iff]

theorem toneEvent_becameNonzero (s t : State) :
    toneEvent s t = some .becameNonzero ↔ s.st.toNat = 0 ∧ t.st.toNat ≠ 0 := by
  rw [← tone_eq_true t, ← not_ne_iff (a := s.st.toNat), ← tone_eq_true s, toneEvent]
  cases tone s <;> cases tone t <;> simp

theorem toneEvent_reachedZero (s t : State) :
    toneEvent s t = some .reachedZero ↔ s.st.toNat ≠ 0 ∧ t.st.toNat = 0 := by
  rw [← tone_eq_true s, ← not_ne_iff (a := t.st.toNat), ← tone_eq_true t, toneEvent]
  cases tone s <;> cases tone t <;> simp

/-- ST goes from 0 to nonzero only by LD ST,Vx. -/
theorem loadSt_of_tone_starts {s t : State} (h : step s = .next t) (h0 : s.st.toNat = 0) (h1 : t.st.toNat ≠ 0) :
    ∃ x : Reg, NextCycleRuns s (.ldStVx x) ∧ t.st = s.reg x ∧ (s.reg x).toNat ≠ 0 := by
  cases timersStep_of_step h with
  | kept _ hst | loadDt _ _ _ hst => exact absurd h0 (hst ▸ h1)
  | loadSt x hruns _ hst => exact ⟨x, hruns, hst, hst ▸ h1⟩
  | tick rest _ _ hst => rw [hst, toNat_countDown] at h1; omega
  | reset rest _ _ hst => rw [hst] at h1; exact absurd rfl h1

/-- ST goes from nonzero to 0 only by a tick at 1, LD ST,Vx with a zero Vx, or reset. -/
theorem cause_of_tone_stops {s t : State} (h : step s = .next t) (h0 : s.st.toNat ≠ 0) (h1 : t.st.toNat = 0) :
    (s.st.toNat = 1 ∧ ∃ rest, s.host = .tick :: rest) ∨ (∃ x : Reg, NextCycleRuns s (.ldStVx x) ∧ (s.reg x).toNat = 0) ∨
      ∃ rest, s.host = .reset :: rest := by
  cases timersStep_of_step h with
  | kept _ hst | loadDt _ _ _ hst => exact absurd h1 (hst ▸ h0)
  | loadSt x hruns _ hst => exact .inr (.inl ⟨x, hruns, hst ▸ h1⟩)
  | tick rest hhost _ hst =>
    rw [hst, toNat_countDown] at h1
    exact .inl ⟨by omega, rest, hhost⟩
  | reset rest hhost => exact .inr (.inr ⟨rest, hhost⟩)

/-- Settles O59: the events are edges of ST, and each edge has one of the steps that write ST behind it. -/
theorem toneStartsOnlyByLoadSt : Obligations.ToneStartsOnlyByLoadSt := by
  intro s t h
  refine ⟨tone_eq_true t, fun hev => ?_, toneEvent_reachedZero s t, fun hev => ?_⟩
  · obtain ⟨h0, h1⟩ := (toneEvent_becameNonzero s t).mp hev
    exact ⟨h0, loadSt_of_tone_starts h h0 h1⟩
  · obtain ⟨h0, h1⟩ := (toneEvent_reachedZero s t).mp hev
    exact cause_of_tone_stops h h0 h1

end Sys2Proof.Machine
end

section
/-! PROOF. The two instructions that store to memory (spec/42_index_and_memory.md R163, R164). `Laws/IndexMemory` gives the state
each leaves as one run of writes; what is left is what such a run makes of each byte. -/

namespace Sys2Proof.Machine

/-- What a run of writes at a leaves: its bytes there, every other byte and every other part as before. -/
theorem stored_bytes (s : State) (a : Nat) (bs : List Byte) :
    (∀ k (h : k < bs.length), Memory.read (s.setMem (Memory.writeBytes s.mem a bs)).mem (a + k) = bs[k]) ∧
    MemSameOutside a bs.length s (s.setMem (Memory.writeBytes s.mem a bs)) ∧
    OnlyChanges [.mem] s (s.setMem (Memory.writeBytes s.mem a bs)) := by
  refine ⟨fun k h => ?_, fun b hb => ?_, onlyChanges_setMem s _⟩
  · rw [State.setMem_mem, Memory.read_writeBytes, dif_pos (by omega)]
    simp only [Nat.add_sub_cancel_left]
  · rw [State.setMem_mem, Memory.read_writeBytes, dif_neg (by omega)]

/-- The byte at a is out of the program region. -/
theorem not_writable_one {a : Nat} : ¬ Writable a 1 ↔ ¬ (progBase ≤ a ∧ a < progEnd) := by
  rw [Writable, not_iff_not]
  exact ⟨fun h => h 0 Nat.one_pos, fun h k hk => Nat.lt_one_iff.mp hk ▸ h⟩

/-! ### LD B,Vx -/

theorem toNat_hundreds (b : Byte) : (hundreds b).toNat = b.toNat / 100 := by
  have := b.isLt
  rw [hundreds, BitVec.toNat_ofNat]
  omega

theorem toNat_tens (b : Byte) : (tens b).toNat = b.toNat / 10 % 10 := by
  rw [tens, BitVec.toNat_ofNat]
  omega

theorem toNat_units (b : Byte) : (units b).toNat = b.toNat % 10 := by
  rw [units, BitVec.toNat_ofNat]
  omega

/-- Settles O42: the three digits are the bytes of the run of writes. -/
theorem bcdStoresThreeDigits : Obligations.BcdStoresThreeDigits := by
  intro x s hw
  obtain ⟨hread, hmem, honly⟩ := stored_bytes s s.i.toNat (digits (s.reg x))
  refine ⟨_, execLdB_inside x s hw, ?_, ?_, ?_, hmem, honly⟩
  · exact (congrArg BitVec.toNat (hread 0 (show 0 < 3 by decide))).trans (toNat_hundreds _)
  · exact (congrArg BitVec.toNat (hread 1 (show 1 < 3 by decide))).trans (toNat_tens _)
  · exact (congrArg BitVec.toNat (hread 2 (show 2 < 3 by decide))).trans (toNat_units _)

/-- Settles O43: the digits before the bad byte are a shorter run. -/
theorem bcdStopsAtFirstBadByte : Obligations.BcdStopsAtFirstBadByte := by
  intro x s m hm hw hbad
  obtain ⟨hread, hmem, honly⟩ := stored_bytes s s.i.toNat ((digits (s.reg x)).take m)
  have hlen : ((digits (s.reg x)).take m).length = m := List.length_take_of_le (Nat.le_of_lt hm)
  rw [hlen] at hmem
  refine ⟨_, execLdB_outside x s m hm hw (not_writable_one.mp hbad), fun h0 => ?_, fun h1 => ?_, hmem, honly⟩
  · exact (congrArg BitVec.toNat ((hread 0 (by omega)).trans List.getElem_take)).trans (toNat_hundreds _)
  · exact (congrArg BitVec.toNat ((hread 1 (by omega)).trans List.getElem_take)).trans (toNat_tens _)

/-! ### LD [I],Vx -/

theorem getElem_regBytes_zero (s : State) {n : Nat} {r : Reg} (h : r.toNat < (regBytes s n 0).length) :
    (regBytes s n 0)[r.toNat] = s.reg r := by
  rw [getElem_regBytes, Nat.zero_add, BitVec.ofNat_toNat, BitVec.setWidth_eq]

/-- Settles O44: the registers V0 to Vx are the bytes of the run of writes. -/
theorem dumpStoresRegistersInclusive : Obligations.DumpStoresRegistersInclusive := by
  intro x s hw
  obtain ⟨hread, hmem, honly⟩ := stored_bytes s s.i.toNat (regBytes s (x.toNat + 1) 0)
  rw [length_regBytes] at hmem
  refine ⟨_, storeRegs_inside (x.toNat + 1) 0 s (fun j hj => by simpa using hw j hj), fun r hr => ?_, hmem, honly⟩
  exact (hread r.toNat (by rw [length_regBytes]; omega)).trans (getElem_regBytes_zero s _)

/-- Settles O45: the registers before the bad byte are a shorter run. -/
theorem dumpStopsAtFirstBadByte : Obligations.DumpStopsAtFirstBadByte := by
  intro x s m hm hw hbad
  obtain ⟨hread, hmem, honly⟩ := stored_bytes s s.i.toNat (regBytes s m 0)
  have hstore := storeRegs_outside m (x.toNat - m) 0 s (fun j hj => by simpa using hw j hj)
    (by simpa using not_writable_one.mp hbad)
  rw [length_regBytes] at hmem
  rw [show m + (x.toNat - m + 1) = x.toNat + 1 by omega] at hstore
  refine ⟨_, hstore, fun r hr => ?_, hmem, honly⟩
  exact (hread r.toNat (by rwa [length_regBytes])).trans (getElem_regBytes_zero s _)

/-- A register dump that completes wrote all its bytes. -/
theorem storeRegs_eq_next {n : Nat} : ∀ {k : Nat} {s t : State}, storeRegs n k s = .next t →
    t = s.setMem (Memory.writeBytes s.mem (s.i.toNat + k) (regBytes s n k)) := by
  induction n with
  | zero => intro k s t h; cases h; rfl
  | succ n ih =>
    intro k s t h
    obtain ⟨u, hu, ht⟩ := andThen_eq_next.mp h
    obtain ⟨rfl, -, -⟩ := memWrite_eq_next hu
    rw [ih ht, regBytes_setMem]
    rfl

/-- Settles O13: the pc and the place of the fetch are as before, and both bytes read there are bytes of the run of writes. -/
theorem storedWordIsFetchedNext : Obligations.StoredWordIsFetchedNext := by
  intro s t x hexec hf hlo hhi
  obtain rfl := storeRegs_eq_next hexec
  obtain ⟨hread, -, -⟩ := stored_bytes s s.i.toNat (regBytes s (x.toNat + 1) 0)
  have hbyte (k : Nat) (hk : k ≤ x.toNat) : Memory.read (Memory.writeBytes s.mem s.i.toNat (regBytes s (x.toNat + 1) 0))
      (s.i.toNat + k) = s.reg (BitVec.ofNat 4 k) := by
    have h := hread k (by rw [length_regBytes]; omega)
    rwa [getElem_regBytes, Nat.zero_add] at h
  have h0 := hbyte (s.pc.toNat - s.i.toNat) (by omega)
  have h1 := hbyte (s.pc.toNat - s.i.toNat + 1) (by omega)
  rw [show s.i.toNat + (s.pc.toNat - s.i.toNat) = s.pc.toNat by omega] at h0
  rw [show s.i.toNat + (s.pc.toNat - s.i.toNat + 1) = s.pc.toNat + 1 by omega] at h1
  rw [← h0, ← h1]
  exact fetchWord_of_fetchable (s := s.setMem _) hf

end Sys2Proof.Machine
end

section
/-! PROOF. The blitter (spec/43_display.md R171, R173). `Laws/Display` says what its loops do to the pixels by number; here the
pixels are named by column and row, and a second draw of one sprite is a second flip of the same pixels. -/

namespace Sys2Proof.Machine

/-- The pixels the sprite of n bytes at I hits, by number. -/
def spriteHit (s : State) (x y : Reg) (n : Nat) : Nat → Prop :=
  RowsHit (s.reg x) (s.reg y) (Memory.readBytes s.mem s.i.toNat n) 0

/-- A draw flips the pixels its sprite hits and reports whether one of them was on. -/
theorem draws_drawn (s : State) (x y : Reg) (n : Nibble) :
    Draws (spriteHit s x y n.toNat) (s.fb, false) (drawn s x y n.toNat) := by
  have hn := n.isLt
  exact draws_drawRows _ _ _ 0 (s.fb, false) (by rw [Memory.length_readBytes]; omega)

theorem lt_of_spriteHit {s : State} {x y : Reg} {n k : Nat} (h : spriteHit s x y n k) : k < 2048 := by
  obtain ⟨_, _, _, -, -, -, rfl⟩ := h
  exact pixelIndex_lt ..

/-- The pixel in column px and row py is the number py * 64 + px, in its one decomposition. -/
theorem pixelIndex_eq_iff {xs ys : Byte} {row col px py : Nat} (hx : px < 64) :
    pixelIndex xs ys row col = py * 64 + px ↔ px = (xs.toNat + col) % 64 ∧ py = (ys.toNat + row) % 32 := by
  simp only [pixelIndex, Config.dispH, Config.dispW]
  omega

theorem spriteHit_iff {s : State} {x y : Reg} {n px py : Nat} (hx : px < 64) :
    spriteHit s x y n (py * 64 + px) ↔ SpriteHits s (s.reg x).toNat (s.reg y).toNat n px py := by
  constructor
  · rintro ⟨row, hrow, col, -, hcol, hbit, hk⟩
    obtain ⟨hpx, hpy⟩ := (pixelIndex_eq_iff hx).mp hk
    rw [Memory.getElem_readBytes] at hbit
    rw [Memory.length_readBytes] at hrow
    exact ⟨row, col, hrow, by omega, hpx, by rwa [Nat.zero_add] at hpy, hbit⟩
  · rintro ⟨row, col, hrow, hcol, hpx, hpy, hbit⟩
    refine ⟨row, by rwa [Memory.length_readBytes], col, Nat.zero_le _, by omega, ?_, (pixelIndex_eq_iff hx).mpr ⟨hpx, ?_⟩⟩
    · rwa [Memory.getElem_readBytes]
    · rwa [Nat.zero_add]

theorem flagByte_le_one (c : Bool) : (flagByte c).toNat ≤ 1 := by cases c <;> decide

theorem flagByte_eq_one {c : Bool} : (flagByte c).toNat = 1 ↔ c = true := by cases c <;> decide

theorem execDrw_inside {x y : Reg} {n : Nibble} {s : State} (h : s.i.toNat + n.toNat ≤ 4096) :
    execDrw x y n s = .next (afterDrw s x y n) := by
  obtain ⟨-, he⟩ | ⟨hlt, -⟩ := execDrw_cases x y n s
  · exact he
  · omega

/-- A hit pixel that was on, by number and by column and row. -/
theorem exists_hit_iff (s : State) (x y : Reg) (n : Nat) : (∃ k, spriteHit s x y n k ∧ pixel s.fb k = true) ↔
    ∃ px py : Nat, px < 64 ∧ py < 32 ∧ pixelAt s px py = some true ∧ SpriteHits s (s.reg x).toNat (s.reg y).toNat n px py := by
  constructor
  · rintro ⟨k, hhit, hon⟩
    have hk := lt_of_spriteHit hhit
    have hx : k % 64 < 64 := Nat.mod_lt _ (by decide)
    have hy : k / 64 < 32 := by omega
    have hdiv : k / 64 * 64 + k % 64 = k := Nat.div_add_mod' k 64
    refine ⟨k % 64, k / 64, hx, hy, ?_, (spriteHit_iff hx).mp (by rwa [hdiv])⟩
    rw [pixelAt_eq_some_pixel s hx hy, hdiv, hon]
  · rintro ⟨px, py, hx, hy, hon, hhit⟩
    rw [pixelAt_eq_some_pixel s hx hy] at hon
    exact ⟨py * 64 + px, (spriteHit_iff hx).mpr hhit, Option.some.inj hon⟩

/-- Settles O49: the pixels flipped are those hit, and the flag of the drawing goes to VF after the framebuffer is stored. -/
theorem drawXorsTheSpriteAndReportsCollision : Obligations.DrawXorsTheSpriteAndReportsCollision := by
  intro x y n s h
  have hdraws := draws_drawn s x y n
  refine ⟨afterDrw s x y n, execDrw_inside h, fun px py hx hy => ?_, ?_, ?_, ?_, ?_⟩
  · rw [← spriteHit_iff hx, ← hdraws.flips _ (by omega), pixelAt_eq_some_pixel _ hx hy, pixelAt_eq_some_pixel _ hx hy,
      Option.some.injEq]
    rfl
  · rw [afterDrw_reg_vF]
    exact flagByte_le_one _
  · rw [afterDrw_reg_vF, flagByte_eq_one, hdraws.collides, ← exists_hit_iff]
    simp
  · exact regsSameBut_setReg (s.setFb _) vF _
  · exact onlyChanges_mono (onlyChanges_trans (onlyChanges_setFb s _) (onlyChanges_setReg _ vF _)) (by simp)

/-! ### The same sprite twice -/

/-- Two draws of one sprite flip each of its pixels twice. -/
theorem Draws.twice {hit : Nat → Prop} {f : Framebuffer} {d e : Drawing} (h1 : Draws hit (f, false) d)
    (h2 : Draws hit (d.1, false) e) : e.1 = f := by
  refine framebuffer_ext fun k hk => ?_
  have hd := h1.flips k hk
  have he := h2.flips k hk
  by_cases hh : hit k
  · simp only [hh, not_true, iff_false] at hd he
    exact (Bool.eq_not_of_ne he).trans (Bool.eq_not_of_ne (Ne.symm hd)).symm
  · simp only [hh, not_false_eq_true, iff_true] at hd he
    exact he.trans hd

/-- On a clear display the first draw of a sprite with a 1 bit meets no pixel that is on, and the second one does. -/
theorem Draws.collides_of_clear {hit : Nat → Prop} {f : Framebuffer} {d e : Drawing} (h1 : Draws hit (f, false) d)
    (h2 : Draws hit (d.1, false) e) (hoff : ∀ k, pixel f k = false) {k : Nat} (hk : k < 2048) (hhit : hit k) :
    d.2 = false ∧ e.2 = true := by
  refine ⟨?_, h2.collides.mpr (.inr ⟨k, hhit, ?_⟩)⟩
  · rw [Bool.eq_false_iff, ne_eq, h1.collides]
    simp [hoff]
  · have hflip : pixel d.1 k ≠ pixel f k := (h1.flips k hk).not.mpr (not_not_intro hhit)
    rw [hoff] at hflip
    exact eq_true_of_ne_false hflip

/-- The second of two draws starts from the first one's framebuffer with the sprite, the place and the flag of the first. -/
theorem draws_drawn_afterDrw {x y : Reg} (hx : x ≠ vF) (hy : y ≠ vF) (n : Nibble) (s : State) :
    Draws (spriteHit s x y n.toNat) ((drawn s x y n.toNat).1, false) (drawn (afterDrw s x y n) x y n.toNat) := by
  have h := draws_drawn (afterDrw s x y n) x y n
  have hregx : (afterDrw s x y n).reg x = s.reg x := State.reg_setReg_other _ hx.symm _
  have hregy : (afterDrw s x y n).reg y = s.reg y := State.reg_setReg_other _ hy.symm _
  rwa [spriteHit, hregx, hregy] at h

/-- Settles O51: the second draw flips the same pixels back, and on a clear display it is the one that collides. -/
theorem drawTwiceRestoresTheDisplay : Obligations.DrawTwiceRestoresTheDisplay := by
  intro x y n s hx hy h
  have h1 := draws_drawn s x y n
  have h2 := draws_drawn_afterDrw hx hy n s
  refine ⟨afterDrw s x y n, afterDrw (afterDrw s x y n) x y n, execDrw_inside h, execDrw_inside h, h1.twice h2, ?_⟩
  rintro ⟨row, col, hrow, hcol, hbit⟩ hclear
  have hhit : spriteHit s x y n.toNat (pixelIndex (s.reg x) (s.reg y) (0 + row) col) :=
    ⟨row, by rwa [Memory.length_readBytes], col, Nat.zero_le _, by omega, by rwa [Memory.getElem_readBytes], rfl⟩
  obtain ⟨hfirst, hsecond⟩ := h1.collides_of_clear h2 (fun k => hclear ▸ pixel_replicate_zero k) (pixelIndex_lt ..) hhit
  exact ⟨by rw [afterDrw_reg_vF, hfirst]; rfl, by rw [afterDrw_reg_vF, hsecond]; rfl⟩

end Sys2Proof.Machine
end

section
/-! PROOF. The instructions that write a register and a flag (spec/41_register_alu.md R147 to R153). Their two writes come in one
of two orders, and each order is described once; what is left is the arithmetic of the result and of the flag. -/

namespace Sys2Proof.Machine

/-! ### The two orders of the writes (R140) -/

theorem regsSameBut_swap {x y : Reg} {s t : State} (h : RegsSameBut [x, y] s t) : RegsSameBut [y, x] s t :=
  fun r hr => h r (by simpa [or_comm] using hr)

/-- The flag written last: it stands in VF whatever x is, the result in Vx unless x = 0xF. -/
theorem resultThenFlag_spec (s : State) (x : Reg) (result flag : Byte) :
    (s.resultThenFlag x result flag).reg vF = flag ∧ (x ≠ vF → (s.resultThenFlag x result flag).reg x = result) ∧
    RegsSameBut [x, vF] s (s.resultThenFlag x result flag) ∧ OnlyChanges [.regs] s (s.resultThenFlag x result flag) := by
  refine ⟨State.reg_setReg_same .., fun hx => ?_, regsSameBut_setReg_setReg s x vF result flag, onlyChanges_setReg_setReg ..⟩
  rw [State.resultThenFlag, State.reg_setReg_other _ (Ne.symm hx), State.reg_setReg_same]

/-- The result written last: it stands in Vx whatever x is, the flag in VF unless x = 0xF. -/
theorem flagThenResult_spec (s : State) (x : Reg) (flag result : Byte) :
    (s.flagThenResult x flag result).reg x = result ∧ (x ≠ vF → (s.flagThenResult x flag result).reg vF = flag) ∧
    RegsSameBut [x, vF] s (s.flagThenResult x flag result) ∧ OnlyChanges [.regs] s (s.flagThenResult x flag result) := by
  refine ⟨State.reg_setReg_same .., fun hx => ?_, regsSameBut_swap (regsSameBut_setReg_setReg s vF x flag result),
    onlyChanges_setReg_setReg ..⟩
  rw [State.flagThenResult, State.reg_setReg_other _ hx, State.reg_setReg_same]

theorem exec_addReg (x y : Reg) (s : State) :
    exec (.addReg x y) s = .next (s.resultThenFlag x (s.reg x + s.reg y) (carryFlag (s.reg x) (s.reg y))) := rfl

theorem exec_subReg (x y : Reg) (s : State) :
    exec (.subReg x y) s = .next (s.flagThenResult x (noBorrowFlag (s.reg x) (s.reg y)) (s.reg x - s.reg y)) := rfl

theorem exec_shr (x y : Reg) (s : State) :
    exec (.shr x y) s = .next (s.flagThenResult x (lowBitFlag (s.reg x)) (s.reg x >>> 1)) := rfl

theorem exec_subnReg (x y : Reg) (s : State) :
    exec (.subnReg x y) s = .next (s.flagThenResult x (noBorrowFlag (s.reg y) (s.reg x)) (s.reg y - s.reg x)) := rfl

theorem exec_shl (x y : Reg) (s : State) :
    exec (.shl x y) s = .next (s.flagThenResult x (highBitFlag (s.reg x)) (s.reg x <<< 1)) := rfl

/-! ### Results and flags in numbers -/

theorem toNat_carryFlag (a b : Byte) : (carryFlag a b).toNat = if a.toNat + b.toNat > 255 then 1 else 0 := by
  rw [carryFlag, flagByte]
  by_cases h : a.toNat + b.toNat > 255 <;> simp [h]

theorem toNat_noBorrowFlag (a b : Byte) : (noBorrowFlag a b).toNat = if a.toNat ≥ b.toNat then 1 else 0 := by
  rw [noBorrowFlag, flagByte]
  by_cases h : a.toNat ≥ b.toNat <;> simp [h]

theorem toNat_sub_eq_emod (a b : Byte) : ((a - b).toNat : Int) = ((a.toNat : Int) - (b.toNat : Int)) % 256 := by
  have ha := a.isLt
  have hb := b.isLt
  rw [BitVec.toNat_sub]
  omega

/-- A bit of a byte, as a flag, is the digit of the byte's value in base 2. -/
theorem toNat_flagByte_getLsbD (a : Byte) (k : Nat) : (flagByte (a.getLsbD k)).toNat = a.toNat / 2 ^ k % 2 := by
  rw [flagByte, BitVec.getLsbD, Nat.testBit_eq_decide_div_mod_eq]
  have hlt : a.toNat / 2 ^ k % 2 < 2 := Nat.mod_lt _ (by decide)
  by_cases h : a.toNat / 2 ^ k % 2 = 1
  · simp [h]
  · simp [h]
    omega

theorem toNat_lowBitFlag (a : Byte) : (lowBitFlag a).toNat = a.toNat % 2 := by
  rw [lowBitFlag, toNat_flagByte_getLsbD, Nat.pow_zero, Nat.div_one]

theorem toNat_highBitFlag (a : Byte) : (highBitFlag a).toNat = a.toNat / 128 := by
  have := a.isLt
  rw [highBitFlag, toNat_flagByte_getLsbD]
  omega

theorem toNat_shiftRight_one (a : Byte) : (a >>> 1).toNat = a.toNat / 2 := by
  rw [BitVec.toNat_ushiftRight, Nat.shiftRight_eq_div_pow, Nat.pow_one]

theorem toNat_shiftLeft_one (a : Byte) : (a <<< 1).toNat = a.toNat * 2 % 256 := by
  rw [BitVec.toNat_shiftLeft, Nat.shiftLeft_eq, Nat.pow_one]

/-! ### The statements -/

/-- Settles O34: the flag is written last. -/
theorem addRegisters : Obligations.AddRegisters := by
  intro x y s
  obtain ⟨hflag, hresult, hregs, honly⟩ :=
    resultThenFlag_spec s x (s.reg x + s.reg y) (carryFlag (s.reg x) (s.reg y))
  refine ⟨_, exec_addReg x y s, ?_, fun hx => ?_, hregs, honly⟩
  · rw [hflag, toNat_carryFlag]
  · rw [hresult hx, BitVec.toNat_add]

/-- Settles O35: the result is written last. -/
theorem subtractRegisters : Obligations.SubtractRegisters := by
  intro x y s
  obtain ⟨hresult, hflag, hregs, honly⟩ :=
    flagThenResult_spec s x (noBorrowFlag (s.reg x) (s.reg y)) (s.reg x - s.reg y)
  refine ⟨_, exec_subReg x y s, ?_, fun hx => ?_, hregs, honly⟩
  · rw [hresult, toNat_sub_eq_emod]
  · rw [hflag hx, toNat_noBorrowFlag]

/-- Settles O36: as O35, with the operands of the difference exchanged. -/
theorem subtractReversed : Obligations.SubtractReversed := by
  intro x y s
  obtain ⟨hresult, hflag, hregs, honly⟩ :=
    flagThenResult_spec s x (noBorrowFlag (s.reg y) (s.reg x)) (s.reg y - s.reg x)
  refine ⟨_, exec_subnReg x y s, ?_, fun hx => ?_, hregs, honly⟩
  · rw [hresult, toNat_sub_eq_emod]
  · rw [hflag hx, toNat_noBorrowFlag]

/-- Settles O37: a shift is a division or a product by 2, and the bit shifted out the lowest or the highest digit. -/
theorem shiftsByOne : Obligations.ShiftsByOne := by
  intro x y s
  constructor
  · obtain ⟨hresult, hflag, hregs, honly⟩ := flagThenResult_spec s x (lowBitFlag (s.reg x)) (s.reg x >>> 1)
    refine ⟨_, exec_shr x y s, ?_, fun hx => ?_, hregs, honly⟩
    · rw [hresult, toNat_shiftRight_one]
    · rw [hflag hx, toNat_lowBitFlag]
  · obtain ⟨hresult, hflag, hregs, honly⟩ := flagThenResult_spec s x (highBitFlag (s.reg x)) (s.reg x <<< 1)
    refine ⟨_, exec_shl x y s, ?_, fun hx => ?_, hregs, honly⟩
    · rw [hresult, toNat_shiftLeft_one]
    · rw [hflag hx, toNat_highBitFlag]

/-- Settles O39: the sum less the same summand is the other one; the two subtractions are of the same two bytes. -/
theorem addThenSubtractRestores : Obligations.AddThenSubtractRestores := by
  intro x y s hx hy hxy
  have hyother : y ∉ [x, vF] := by simp [hxy.symm, hy]
  constructor
  · have hadd := exec_addReg x y s
    obtain ⟨-, hsum, hsame, -⟩ := resultThenFlag_spec s x (s.reg x + s.reg y) (carryFlag (s.reg x) (s.reg y))
    generalize s.resultThenFlag x (s.reg x + s.reg y) (carryFlag (s.reg x) (s.reg y)) = t at hadd hsum hsame
    obtain ⟨hdiff, -, hsame', -⟩ := flagThenResult_spec t x (noBorrowFlag (t.reg x) (t.reg y)) (t.reg x - t.reg y)
    refine ⟨t, _, hadd, exec_subReg x y t, ?_, ?_⟩
    · rw [hdiff, hsum hx, hsame y hyother, BitVec.add_sub_cancel]
    · rw [hsame' y hyother, hsame y hyother]
  · obtain ⟨hdiff, hflag, -, -⟩ := flagThenResult_spec s x (noBorrowFlag (s.reg x) (s.reg y)) (s.reg x - s.reg y)
    obtain ⟨hdiff', hflag', -, -⟩ := flagThenResult_spec s y (noBorrowFlag (s.reg x) (s.reg y)) (s.reg x - s.reg y)
    exact ⟨_, _, exec_subReg x y s, exec_subnReg y x s, hdiff.trans hdiff'.symm, (hflag hx).trans (hflag' hy).symm⟩

theorem flagByte_eq_zero_or_one (c : Bool) : flagByte c = 0 ∨ flagByte c = 1 := by cases c <;> decide

theorem flag_of_flagThenResult {s t : State} {x : Reg} {c : Bool} {result : Byte} (hx : x ≠ vF)
    (h : (.next (s.flagThenResult x (flagByte c) result) : Result) = .next t) : t.reg vF = 0 ∨ t.reg vF = 1 := by
  obtain ⟨-, hflag, -⟩ := flagThenResult_spec s x (flagByte c) result
  cases h
  rw [hflag hx]
  exact flagByte_eq_zero_or_one c

/-- Settles O21: in each of the six what stands in VF is a flag, written last or to another register than the result. -/
theorem flagsAreZeroOrOne : Obligations.FlagsAreZeroOrOne := by
  intro s t x y n h
  obtain hadd | hdrw | ⟨hx, hsub | hshr | hsubn | hshl⟩ := h
  · obtain ⟨hflag, -⟩ := resultThenFlag_spec s x (s.reg x + s.reg y) (carryFlag (s.reg x) (s.reg y))
    cases hadd
    rw [hflag]
    exact flagByte_eq_zero_or_one _
  · obtain ⟨-, he⟩ | ⟨-, he⟩ := execDrw_cases x y n s <;> cases he.symm.trans hdrw
    rw [afterDrw_reg_vF]
    exact flagByte_eq_zero_or_one _
  · exact flag_of_flagThenResult hx hsub
  · exact flag_of_flagThenResult hx hshr
  · exact flag_of_flagThenResult hx hsubn
  · exact flag_of_flagThenResult hx hshl

/-- Settles O38: a bit that kk clears is clear in the masked byte, whatever byte was drawn. -/
theorem randomByteIsMasked : Obligations.RandomByteIsMasked := by
  intro x kk s
  refine ⟨(s.setReg x (randByte s &&& kk)).setDraws (s.draws + 1), rfl, State.reg_setReg_same .., fun k hk => ?_, rfl,
    regsSameBut_setReg s x _, onlyChanges_trans (onlyChanges_setReg s x _) (onlyChanges_setDraws _ _)⟩
  rw [State.setDraws_reg, State.reg_setReg_same, BitVec.getLsbD_and, hk, Bool.and_false]

end Sys2Proof.Machine
end

section
/-! PROOF. Control flow, the index register and the timer transfers (spec/40_control_flow.md R121 to R129,
spec/42_index_and_memory.md R160 to R162, spec/44_keypad_and_timers.md R182, R184, R185). -/

namespace Sys2Proof.Machine

/-! ### Jumps, calls and returns -/

theorem toNat_zextAddr (nnn : Addr12) : (zextAddr nnn).toNat = nnn.toNat := by
  have := nnn.isLt
  rw [zextAddr, BitVec.toNat_setWidth]
  omega

theorem toNat_zextByte (b : Byte) : (zextByte b).toNat = b.toNat := by
  have := b.isLt
  rw [zextByte, BitVec.toNat_setWidth]
  omega

/-- Settles O25: a jump is one write to the pc. -/
theorem jumpReplacesPc : Obligations.JumpReplacesPc :=
  fun nnn s => ⟨s.setPc (zextAddr nnn), rfl, toNat_zextAddr nnn, onlyChanges_setPc s _⟩

/-- Settles O26: the sum of 12 bits and 8 bits fits in 16. -/
theorem jumpV0StoresTheWholeSum : Obligations.JumpV0StoresTheWholeSum := by
  intro nnn s
  refine ⟨s.setPc (zextAddr nnn + zextByte (s.reg 0)), rfl, ?_, onlyChanges_setPc s _⟩
  have hn := nnn.isLt
  have hb := (s.reg 0).isLt
  rw [State.setPc_pc, BitVec.toNat_add, toNat_zextAddr, toNat_zextByte]
  omega

theorem onlyChanges_setStack_setPc (s : State) (p : Fin 17) (k : Vector Word 16) (w : Word) :
    OnlyChanges [.pc, .stack] s ((s.setStack p k).setPc w) :=
  onlyChanges_mono (onlyChanges_trans (onlyChanges_setStack s p k) (onlyChanges_setPc _ w)) (by simp)

/-- RET right after a push takes the pushed address and the depth before it (R28). -/
theorem execRet_after_push {s t : State} (h : s.sp.val < 16) (hsp : t.sp.val = s.sp.val + 1)
    (hslot : t.stack[s.sp.val] = s.pc) : ∃ u : State, execRet t = .next u ∧ u.pc = s.pc ∧ u.sp = s.sp := by
  obtain ⟨_, he⟩ | ⟨h0, -⟩ := execRet_cases t
  · have hdepth : t.sp.val - 1 = s.sp.val := by omega
    refine ⟨_, he, ?_, Fin.ext hdepth⟩
    rw [State.setPc_pc, ← hslot]
    congr 1
  · omega

/-- Settles O27: the two outcomes of CALL, and RET on the first one. -/
theorem callPushesAndReturnRestores : Obligations.CallPushesAndReturnRestores := by
  intro nnn s
  obtain ⟨hlt, he⟩ | ⟨hfull, he⟩ := execCall_cases nnn s
  · refine ⟨fun _ => ?_, fun hfull => by omega⟩
    have hslot : (s.stack.set s.sp.val s.pc hlt)[s.sp.val] = s.pc := Vector.getElem_set_self ..
    exact ⟨_, he, toNat_zextAddr nnn, rfl, hslot, fun k hk hne => Vector.getElem_set_ne hlt hk hne.symm,
      onlyChanges_setStack_setPc .., execRet_after_push hlt rfl hslot⟩
  · exact ⟨fun hlt => by omega, fun _ => he⟩

/-- Settles O28: the two outcomes of RET. -/
theorem returnPops : Obligations.ReturnPops := by
  intro s
  obtain ⟨hpos, he⟩ | ⟨h0, he⟩ := execRet_cases s
  · exact ⟨fun _ => ⟨_, he, rfl, rfl, rfl, onlyChanges_setStack_setPc ..⟩, fun h0 => by omega⟩
  · exact ⟨fun hpos => by omega, fun _ => he⟩

/-- Settles O30: both are skips on the comparison of two registers. -/
theorem skipsOnRegister : Obligations.SkipsOnRegister := by
  intro x y s
  exact ⟨skips_of_exec_eq_skipIf (i := .seReg x y) rfl (decide_eq_iff_toNat_eq (s.reg x) (s.reg y)),
    skips_of_exec_eq_skipIf (i := .sneReg x y) rfl (decide_ne_iff_toNat_ne (s.reg x) (s.reg y))⟩

/-- Settles O31: SYS raises its error on the state as it stands. -/
theorem sysAlwaysRaisesInvalidOpcode : Obligations.SysAlwaysRaisesInvalidOpcode := fun _ _ => rfl

/-! ### I and the timers -/

theorem toNat_glyphAddr (b : Byte) : (glyphAddr b).toNat = fontBase + 5 * b.toNat := by
  have := b.isLt
  rw [glyphAddr, BitVec.toNat_ofNat]
  unfold fontBase Config.glyphBytes
  omega

/-- Settles O40: each of the three is one write to I. -/
theorem indexRegisterWrites : Obligations.IndexRegisterWrites := by
  intro nnn x s
  refine ⟨⟨s.setI (zextAddr nnn), rfl, toNat_zextAddr nnn, onlyChanges_setI s _⟩,
    ⟨s.setI (s.i + zextByte (s.reg x)), rfl, ?_, onlyChanges_setI s _⟩,
    ⟨s.setI (glyphAddr (s.reg x)), rfl, toNat_glyphAddr (s.reg x), onlyChanges_setI s _⟩⟩
  rw [State.setI_i, BitVec.toNat_add, toNat_zextByte]

/-- Settles O41: the five bytes at the glyph's address lie in the font, which the invariant keeps in memory. -/
theorem fontAddressFindsTheGlyph : Obligations.FontAddressFindsTheGlyph := by
  intro x s h hx
  refine ⟨s.setI (glyphAddr (s.reg x)), rfl, fun r hr => ?_⟩
  have hlt : fontBase + 5 * (s.reg x).toNat + r < 4096 := by
    unfold fontBase
    omega
  rw [State.setI_i, toNat_glyphAddr, memRead_inside _ hlt, Nat.add_assoc]
  exact congrArg some (read_font h.2 (by omega))

/-- Settles O53: each of the three is one write; the tone is read off ST. -/
theorem timerTransfers : Obligations.TimerTransfers := by
  intro x s
  refine ⟨writesOneReg_of_exec_eq_setReg (i := .ldVxDt x) (· = s.dt) rfl rfl,
    ⟨s.setDt (s.reg x), rfl, rfl, onlyChanges_setDt s _⟩, ⟨s.setSt (s.reg x), rfl, rfl, tone_eq_true _, onlyChanges_setSt s _⟩⟩

end Sys2Proof.Machine
end
